-- ==== Sys2Proof/Word.lean ====
section
/-! DEFINITION. The word types of the RNCO (spec 00_scope.md R12). -/

namespace Sys2Proof

/-- A register, a buffer word or a bus transfer: 32 bits (00_scope.md R12). -/
abbrev Word := BitVec 32

/-- One code-table chip cell, or one byte of a buffer word (00_scope.md R12). -/
abbrev Byte := BitVec 8

/-- A byte address of the host register space: 18 bits (20_memory.md R60). -/
abbrev BusAddr := BitVec 18

end Sys2Proof
end

