-- ==== Sys2Proof/Config.lean ====
section
/-! DEFINITION. What an implementation fixes (00_scope.md R10, R11; 10_state.md R43) and the free values
(00_scope.md R16, `draw`). -/

namespace Sys2Proof

/-- The five parameters of an RNCO, fixed when it is built (00_scope.md R10, R11). Their ranges are
`Config.wf`. -/
structure Config where
  /-- Q, `quadrant_size_power`, field CFG0.QSP. -/
  q : Nat
  /-- A, `carrier_amplitude_power`, field CFG0.CAP. -/
  a : Nat
  /-- L_MAX, the greatest code length the code table holds. -/
  lMax : Nat
  /-- PRN_MAX, the number of PRN columns. -/
  prnMax : Nat
  /-- BUF_DEPTH, the number of words in each sample buffer. -/
  bufDepth : Nat
  deriving DecidableEq, Repr

/-- Reference configuration REF-S of the test vectors (00_scope.md R13). -/
def Config.refS : Config := { q := 2, a := 3, lMax := 16, prnMax := 4, bufDepth := 16 }

/-- Reference configuration REF-M of the test vectors (00_scope.md R13). -/
def Config.refM : Config := { q := 4, a := 7, lMax := 16, prnMax := 4, bufDepth := 16 }

/-- Free values behind the OPEN parameters (log 1). -/
opaque Config.freeQ : Nat
opaque Config.freeA : Nat
opaque Config.freeLMax : Nat
opaque Config.freePrnMax : Nat
opaque Config.freeBufDepth : Nat

/-- The configuration of the machine at hand: each parameter is free within the range the spec gives it
(00_scope.md R10, R11), and nothing in Lean can find out more (log 1). -/
def Config.built : Config where
  q := Config.freeQ % 17
  a := Config.freeA % 15
  lMax := 2 + Config.freeLMax % 16777214
  prnMax := 1 + Config.freePrnMax % 65535
  bufDepth := 1 + Config.freeBufDepth % 16384

/-- DESIGN CHOICE (form of the free values; log 3, 4, 5, 6). The word a `draw` of the spec yields at step
number `step` for the bus byte address `addr`. Nothing constrains it. -/
opaque Config.freeWord (step addr : Nat) : BitVec 32

/-- DESIGN CHOICE (form of the free value; log 2). The chip that an unwritten code-table cell `cell` holds at
step number `step`: some 8-bit value (93_implementation_defined.md I3). -/
opaque Config.freeChip (step cell : Nat) : BitVec 8

end Sys2Proof
end

