-- ==== Sys2Proof/Syntax.lean ====
section
/-! DEFINITION. The command set: one constructor per row of spec/opcode_table.json (30_encoding.md R94). A command
word carries no operand and no immediate (30_encoding.md R91), so no constructor has an argument: every operand
comes from the snapshot of the argument registers. -/

namespace Sys2Proof

/-- The twelve commands, in the order of 30_encoding.md R94. -/
inductive Instr where
  /-- 40_engine.md R127 -/
  | nop
  /-- 41_code_table.md R141 -/
  | ctWrite
  /-- 41_code_table.md R143 -/
  | ctBuild
  /-- 41_code_table.md R144 -/
  | ctRead
  /-- 41_code_table.md R145 -/
  | ctReadUnchecked
  /-- 42_code_sampler.md R162 -/
  | codeSample
  /-- 42_code_sampler.md R164 -/
  | codePhase
  /-- 43_carrier.md R187 -/
  | carGen
  /-- 43_carrier.md R188 -/
  | carPhases
  /-- 43_carrier.md R189 -/
  | carLut
  /-- 43_carrier.md R191 -/
  | carEval
  /-- 43_carrier.md R190 -/
  | carRomRead
  deriving DecidableEq, Repr

end Sys2Proof
end

