-- ==== Sys2Proof/WellFormed.lean ====
section
/-! DEFINITION. Well-formedness: of a configuration (the ranges of 00_scope.md R10, R11), of a command word
(30_encoding.md R95), and of an instruction. -/

namespace Sys2Proof

/-- The ranges of the five parameters (00_scope.md R10, R11; 92_eei_decisions.md, Open parameters). -/
def Config.wf (c : Config) : Bool :=
  decide (c.q ≤ 16) && decide (c.a ≤ 14) &&
  decide (2 ≤ c.lMax) && decide (c.lMax ≤ 16777215) &&
  decide (1 ≤ c.prnMax) && decide (c.prnMax ≤ 65535) &&
  decide (1 ≤ c.bufDepth) && decide (c.bufDepth ≤ 16384)

/-- A legal command word: RSV = 0 and OPC one of the twelve opcodes (30_encoding.md R94, R95). Written from the
ranges R95 lists, independently of the decoder's table. -/
def legalCommand (w : Word) : Bool :=
  decide (w.toNat ≤ 0x04) || decide (w.toNat = 0x10) || decide (w.toNat = 0x11) ||
  (decide (0x20 ≤ w.toNat) && decide (w.toNat ≤ 0x24))

/-- A command has no fields (30_encoding.md R91), so there is nothing in one that could be ill formed. -/
def Instr.wf (i : Instr) : Bool :=
  match i with
  | .nop => true
  | .ctWrite => true
  | .ctBuild => true
  | .ctRead => true
  | .ctReadUnchecked => true
  | .codeSample => true
  | .codePhase => true
  | .carGen => true
  | .carPhases => true
  | .carLut => true
  | .carEval => true
  | .carRomRead => true

end Sys2Proof
end

