-- ==== Sys2Proof/Decode.lean ====
section
/-! DEFINITION. The decoder (30_encoding.md R90, R94, R95; 40_engine.md R126), total on any word and rejecting by
name, and after it the encoder. -/

namespace Sys2Proof

/-- Why a command word is illegal (30_encoding.md R95). Both raise ILLEGAL_CMD at execution. -/
inductive DecodeError where
  /-- RSV, bits [31:8], is not 0. -/
  | reservedBits
  /-- RSV = 0 and OPC is not in the table of R94. -/
  | unknownOpcode
  deriving DecidableEq, Repr

/-- One row of the opcode map. -/
structure OpcodeRow where
  opc : BitVec 8
  instr : Instr
  deriving DecidableEq, Repr

/-- The opcode map of 30_encoding.md R94, row by row. -/
def opcodeMap : List OpcodeRow :=
  [ ⟨0x00, .nop⟩
  , ⟨0x01, .ctWrite⟩
  , ⟨0x02, .ctBuild⟩
  , ⟨0x03, .ctRead⟩
  , ⟨0x04, .ctReadUnchecked⟩
  , ⟨0x10, .codeSample⟩
  , ⟨0x11, .codePhase⟩
  , ⟨0x20, .carGen⟩
  , ⟨0x21, .carPhases⟩
  , ⟨0x22, .carLut⟩
  , ⟨0x23, .carEval⟩
  , ⟨0x24, .carRomRead⟩ ]

/-- OPC, bits [7:0] of a command word (30_encoding.md R90). -/
def opcOf (w : Word) : BitVec 8 := w.extractLsb' 0 8

/-- RSV, bits [31:8] of a command word (30_encoding.md R90). -/
def rsvOf (w : Word) : BitVec 24 := w.extractLsb' 8 24

/-- The row of `rows` whose OPC is `opc`. -/
def lookupOpcode (opc : BitVec 8) : List OpcodeRow → Except DecodeError Instr
  | [] => .error .unknownOpcode
  | row :: rows => if row.opc = opc then .ok row.instr else lookupOpcode opc rows

/-- Decode a command word (40_engine.md R126). -/
def decode (w : Word) : Except DecodeError Instr :=
  if rsvOf w ≠ 0 then .error .reservedBits else lookupOpcode (opcOf w) opcodeMap

/-- Encode a command: the word `zext_32(OPC)` (30_encoding.md R94). -/
def encode (i : Instr) : Word :=
  match i with
  | .nop => 0x00000000#32
  | .ctWrite => 0x00000001#32
  | .ctBuild => 0x00000002#32
  | .ctRead => 0x00000003#32
  | .ctReadUnchecked => 0x00000004#32
  | .codeSample => 0x00000010#32
  | .codePhase => 0x00000011#32
  | .carGen => 0x00000020#32
  | .carPhases => 0x00000021#32
  | .carLut => 0x00000022#32
  | .carEval => 0x00000023#32
  | .carRomRead => 0x00000024#32

/-- The command word of a table row's bits: the low `nbits` bits of `w`, the bits above them 0. The hardware
takes the word whole in one CMD write (30_encoding.md R97), so there is no byte order to lay out. -/
def tableWord (nbits w : Nat) : Word := BitVec.ofNat 32 (w % 2 ^ nbits)

/-- The instruction this decoder reads from a word whose bits are numbered as spec/opcode_table.json numbers
them. -/
def decodeTableWord (nbits w : Nat) : Option Instr :=
  match decode (tableWord nbits w) with
  | .ok i => some i
  | .error _ => none

end Sys2Proof
end

