-- ==== Sys2Proof/Machine/State.lean ====
section
/-! DEFINITION. The state of the RNCO as plain data (10_state.md R20), the reasons a step can stop, and the state
after reset (10_state.md R44). -/

namespace Sys2Proof.Machine

/-- Eight 32-bit words: the argument registers ARG0 to ARG7 (10_state.md R22), and the engine's snapshot A[0..7] of
them (40_engine.md R121). -/
structure Args where
  a0 : Word
  a1 : Word
  a2 : Word
  a3 : Word
  a4 : Word
  a5 : Word
  a6 : Word
  a7 : Word
  deriving DecidableEq, Repr

/-- Eight zero words: ARG0 to ARG7 after reset (10_state.md R44). -/
def Args.zero : Args := { a0 := 0, a1 := 0, a2 := 0, a3 := 0, a4 := 0, a5 := 0, a6 := 0, a7 := 0 }

/-- The status codes of 60_exceptions.md R210. Codes 6 to 15 are never written and have no constructor (log 19). -/
inductive StatusCode where
  /-- code 0 -/
  | ok
  /-- code 1 -/
  | illegalCmd
  /-- code 2 -/
  | invalidInput
  /-- code 3 -/
  | invalidParameter
  /-- code 4 -/
  | outOfRange
  /-- code 5 -/
  | tableInvalid
  deriving DecidableEq, Repr

/-- The model's faults. No step ends in one: the only fault of the spec is recorded in `State.fault`, and the
command goes on (log 2). -/
inductive Fault where
  /-- A command read a code-table cell that nothing has written since reset (93_implementation_defined.md I3).
  Recorded by CT_READ, CT_READ_UNCHECKED and CODE_SAMPLE; safe: the chip is a free value and the record is kept. -/
  | unwrittenCell
  deriving DecidableEq, Repr

/-- The model's refusals. -/
inductive Refusal where
  /-- Raised only by an arm of `exec` that gives its instruction no meaning; safe. No arm does. -/
  | notModelled (mnemonic : String)
  deriving DecidableEq, Repr

/-- One move of the total order of 20_memory.md R70: a host step (20_memory.md R61, R78; 70_reset_and_hazards.md R240), or
a place in the order at which the engine may take its step (log 7). -/
inductive Move where
  /-- `MemRead(addr, 4)` -/
  | read (addr : BusAddr)
  /-- `MemWrite(addr, 4, data)` -/
  | write (addr : BusAddr) (data : Word)
  /-- The reset input is asserted. -/
  | reset
  /-- The engine's turn: its completion step if a command runs, otherwise nothing. -/
  | engine
  deriving DecidableEq, Repr

/-- Bytes by number, rising, no number twice; a number that is not listed has not been written. -/
abbrev Memory := List Host.Cell

/-- The state of the RNCO (10_state.md R20), and the model's own fields after it. -/
structure State where
  /-- The constants behind CFG0, CFG1 and CFG2 (10_state.md R25 to R27, R43). -/
  cfg : Config
  /-- STATUS.BUSY (10_state.md R28). -/
  busy : Bool
  /-- STATUS.DONE (10_state.md R28). -/
  done : Bool
  /-- STATUS.TABLE_VALID (10_state.md R28, R34). -/
  tableValid : Bool
  /-- STATUS.CMD_OVR (10_state.md R28). -/
  cmdOvr : Bool
  /-- STATUS.ERR (10_state.md R28, 60_exceptions.md R210). -/
  err : StatusCode
  /-- CTRL.IRQ_EN (10_state.md R30). -/
  irqEn : Bool
  /-- ARG0 to ARG7 (10_state.md R22). -/
  args : Args
  /-- RESULT0 (10_state.md R23). -/
  result0 : Word
  /-- RESULT1 (10_state.md R23). -/
  result1 : Word
  /-- CT_LEN [23:0] (10_state.md R32). -/
  ctLen : BitVec 24
  /-- CT_PRNS [15:0] (10_state.md R33). -/
  ctPrns : BitVec 16
  /-- The code table T (10_state.md R35): cell (row, column) has number 65536·row + column (log 11). -/
  table : Memory
  /-- The buffers IN and OUT at their bus byte addresses (10_state.md R37, R38; 20_memory.md R63, R64). -/
  mem : Memory
  /-- Hidden: the accepted command word (10_state.md R39); 0 while no command runs (log 9). -/
  cmd : Word
  /-- Hidden: the snapshot A[0..7] (10_state.md R39); zeros while no command runs (log 9). -/
  snap : Args
  /-- Model's own: which IN words the host wrote under the running CAR_LUT (70_reset_and_hazards.md R252; log 6). -/
  raced : List Nat
  /-- Model's own: the step number that free values are taken at (00_scope.md R16; log 13). -/
  draws : Nat
  /-- Model's own: the fault 93_implementation_defined.md I3 has a model record (log 2, 17). -/
  fault : Option Fault
  /-- Model's own: the word the last host read returned (log 10). -/
  rdata : Word
  /-- Model's own: the moves to come, oldest first (20_memory.md R70; log 7). -/
  pending : List Move
  deriving DecidableEq, Repr

/-- The state right after reset of an RNCO built as `c` (10_state.md R44). -/
def State.resetWith (c : Config) : State where
  cfg := c
  busy := false
  done := false
  tableValid := false
  cmdOvr := false
  err := .ok
  irqEn := false
  args := Args.zero
  result0 := 0
  result1 := 0
  ctLen := 0
  ctPrns := 0
  table := []
  mem := []
  cmd := 0
  snap := Args.zero
  raced := []
  draws := 0
  fault := none
  rdata := 0
  pending := []

/-- The machine right after reset (10_state.md R44); its configuration is free (log 1). -/
def State.reset : State := State.resetWith Config.built

end Sys2Proof.Machine
end

