-- ==== Sys2Proof/Machine/Ops.lean ====
section
/-! DEFINITION. The named operations over memory and registers; acceptance, completion and raising of a command
(40_engine.md R121, R122; 60_exceptions.md R211). The RNCO takes no traps (60_exceptions.md R215): `State.conclude` is
its one shared way to end a command, with `OK` or with a raised status code. -/

namespace Sys2Proof.Machine

/-! ## Memory -/

/-- The byte at number `a`, or none where nothing has been written. -/
def Memory.byteAt : Memory → Nat → Option Byte
  | [], _ => none
  | (k, v) :: m, a => if k = a then some v else Memory.byteAt m a

/-- Write byte `b` at number `a`, keeping the list rising. -/
def Memory.setByte : Memory → Nat → Byte → Memory
  | [], a, b => [(a, b)]
  | (k, v) :: m, a, b =>
    if a < k then (a, b) :: (k, v) :: m
    else if a = k then (a, b) :: m
    else (k, v) :: Memory.setByte m a b

/-- Make number `a` unwritten. -/
def Memory.erase : Memory → Nat → Memory
  | [], _ => []
  | (k, v) :: m, a => if k = a then Memory.erase m a else (k, v) :: Memory.erase m a

/-- Give number `a` what a cell holds: a byte, or nothing written. -/
def Memory.putCell (m : Memory) (a : Nat) (v : Option Byte) : Memory :=
  match v with
  | some b => Memory.setByte m a b
  | none => Memory.erase m a

/-- Byte `j` of a word is its bits [8j+7 : 8j] (20_memory.md R63). -/
def byteOf (w : Word) (j : Nat) : Byte := w.extractLsb' (8 * j) 8

/-- The word at byte address `a`, least significant byte first (20_memory.md R63); none where it is unwritten. -/
def Memory.wordAt (m : Memory) (a : Nat) : Option Word :=
  match Memory.byteAt m a, Memory.byteAt m (a + 1), Memory.byteAt m (a + 2), Memory.byteAt m (a + 3) with
  | some b0, some b1, some b2, some b3 => some (b3 ++ b2 ++ b1 ++ b0)
  | _, _, _, _ => none

/-- Write the word `w` at byte address `a` (20_memory.md R63, R67). -/
def Memory.putWord (m : Memory) (a : Nat) (w : Word) : Memory :=
  Memory.setByte (Memory.setByte (Memory.setByte (Memory.setByte m a (byteOf w 0)) (a + 1) (byteOf w 1))
    (a + 2) (byteOf w 2)) (a + 3) (byteOf w 3)

/-- The canonical form: numbers strictly rising. An unlisted number reads as unwritten, and no listed number does,
so no entry equals what an unlisted number reads as. -/
abbrev Memory.wf (m : Memory) : Prop := m.Pairwise (fun x y => x.1 < y.1)

/-! ## Buffers -/

/-- Bus byte address of `IN[i]` (20_memory.md R64). -/
def inAddr (i : Nat) : Nat := 0x10000 + 4 * i

/-- Bus byte address of `OUT[i]` (20_memory.md R64). -/
def outAddr (i : Nat) : Nat := 0x20000 + 4 * i

/-- `IN[i]`; where it is unwritten, a free word (93_implementation_defined.md I4; log 3). -/
def State.inWord (s : State) (i : Nat) : Word :=
  match Memory.wordAt s.mem (inAddr i) with
  | some w => w
  | none => Config.freeWord s.draws (inAddr i)

/-- `OUT[i]`; where it is unwritten, a free word (93_implementation_defined.md I4; log 3). -/
def State.outWord (s : State) (i : Nat) : Word :=
  match Memory.wordAt s.mem (outAddr i) with
  | some w => w
  | none => Config.freeWord s.draws (outAddr i)

/-- `IN[i] <- w`. -/
def State.putIn (s : State) (i : Nat) (w : Word) : State :=
  { s with mem := Memory.putWord s.mem (inAddr i) w }

/-- `OUT[j] <- f j` for j = 0 … n − 1, in that order. -/
def writeOuts : Nat → (Nat → Word) → Memory → Memory
  | 0, _, m => m
  | n + 1, f, m => Memory.putWord (writeOuts n f m) (outAddr n) (f n)

/-- `OUT[j] <- f j` for j = 0 … n − 1 (10_state.md R38). -/
def State.putOuts (s : State) (n : Nat) (f : Nat → Word) : State :=
  { s with mem := writeOuts n f s.mem }

/-! ## Code table -/

/-- The number of code-table cell `T[r][c]` in `State.table` (10_state.md R35; log 11). -/
def cellKey (r c : Nat) : Nat := 65536 * r + c

/-- What the code-table cell `T[r][c]` holds; none where it is unwritten (10_state.md R35). -/
def State.cell (s : State) (r c : Nat) : Option Byte := Memory.byteAt s.table (cellKey r c)

/-- The chip a command reads in cell `T[r][c]`; where it is unwritten, a free chip
(93_implementation_defined.md I3; log 2). -/
def State.chipAt (s : State) (r c : Nat) : Byte :=
  match s.cell r c with
  | some b => b
  | none => Config.freeChip s.draws (cellKey r c)

/-- `T[r][c] <- v`; `none` makes the cell unwritten. -/
def State.putChip (s : State) (r c : Nat) (v : Option Byte) : State :=
  { s with table := Memory.putCell s.table (cellKey r c) v }

/-- Copy cell `T[r][c]` into `T[r'][c]`; a copy of an unwritten cell is unwritten too (41_code_table.md R142). -/
def copyCell (m : Memory) (r r' c : Nat) : Memory :=
  Memory.putCell m (cellKey r' c) (Memory.byteAt m (cellKey r c))

/-- The guard rows of columns 0 … n − 1 for code length `len`: row 0 from row `len`, row `len + 1` from row 1
(41_code_table.md R143). -/
def fillGuards (len : Nat) : Nat → Memory → Memory
  | 0, m => m
  | n + 1, m => copyCell (copyCell (fillGuards len n m) len 0 n) 1 (len + 1) n

/-- Fill the guard rows, set CT_LEN and CT_PRNS and make the table reachable (41_code_table.md R143). -/
def State.buildTable (s : State) (len prns : Nat) : State :=
  { s with
    table := fillGuards len prns s.table
    ctLen := BitVec.ofNat 24 len
    ctPrns := BitVec.ofNat 16 prns
    tableValid := true }

/-- Record the fault of 93_implementation_defined.md I3 if an unwritten cell was read (log 2). -/
def State.noteUnwritten (s : State) (unwritten : Bool) : State :=
  if unwritten then { s with fault := some .unwrittenCell } else s

/-! ## Registers -/

/-- Argument register `j`. -/
def Args.get (x : Args) (j : Fin 8) : Word :=
  match j with
  | 0 => x.a0
  | 1 => x.a1
  | 2 => x.a2
  | 3 => x.a3
  | 4 => x.a4
  | 5 => x.a5
  | 6 => x.a6
  | 7 => x.a7

/-- Write argument register `j`. -/
def Args.set (x : Args) (j : Fin 8) (w : Word) : Args :=
  match j with
  | 0 => { x with a0 := w }
  | 1 => { x with a1 := w }
  | 2 => { x with a2 := w }
  | 3 => { x with a3 := w }
  | 4 => { x with a4 := w }
  | 5 => { x with a5 := w }
  | 6 => { x with a6 := w }
  | 7 => { x with a7 := w }

/-- `RESULT0 <- r0; RESULT1 <- r1` (10_state.md R23). -/
def State.setResults (s : State) (r0 r1 : Word) : State := { s with result0 := r0, result1 := r1 }

/-! ## The command's life -/

/-- Acceptance of the command word `w` (40_engine.md R121). -/
def State.accept (s : State) (w : Word) : State :=
  { s with
    cmd := w
    snap := s.args
    raced := []
    busy := true
    done := false
    err := .ok
    tableValid := if w = 0x00000001#32 ∨ w = 0x00000002#32 then false else s.tableValid }

/-- Completion with status code `e` (40_engine.md R122): ERR, DONE and BUSY. The engine then holds no command
(10_state.md R39; log 9), and the step number moves on (log 13). -/
def State.complete (s : State) (e : StatusCode) : State :=
  { s with
    err := e
    done := true
    busy := false
    cmd := 0
    snap := Args.zero
    raced := []
    draws := s.draws + 1 }

/-- What executing a command yields: `.ok t` is `complete` after the writes that lead to `t`; `.error e` is
`raise e` (00_scope.md R16). -/
abbrev Execution := Except StatusCode State

/-- End a command run from `s`. A raise discards every write: only the completion writes take effect
(60_exceptions.md R211). -/
def State.conclude (s : State) (x : Execution) : State :=
  match x with
  | .ok t => t.complete .ok
  | .error e => s.complete e

/-- Is the running command one that `p` holds of? No while no command runs or the word is illegal. -/
def State.running (s : State) (p : Instr → Bool) : Bool :=
  match decode s.cmd with
  | .ok i => s.busy && p i
  | .error _ => false

/-- The commands that write OUT (10_state.md R38, 40_engine.md R124). -/
def writesOut (i : Instr) : Bool :=
  match i with
  | .codeSample => true
  | .carGen => true
  | .carPhases => true
  | .carLut => true
  | .nop => false
  | .ctWrite => false
  | .ctBuild => false
  | .ctRead => false
  | .ctReadUnchecked => false
  | .codePhase => false
  | .carEval => false
  | .carRomRead => false

/-- The commands that write RESULT0 and RESULT1 (10_state.md R23, 40_engine.md R124). -/
def writesResult (i : Instr) : Bool :=
  match i with
  | .ctRead => true
  | .ctReadUnchecked => true
  | .codePhase => true
  | .carEval => true
  | .carRomRead => true
  | .nop => false
  | .ctWrite => false
  | .ctBuild => false
  | .codeSample => false
  | .carGen => false
  | .carPhases => false
  | .carLut => false

end Sys2Proof.Machine
end

