-- ==== Sys2Proof/Machine/Operands.lean ====
section
/-! DEFINITION. Operand assembly: every operand of every command, read from the snapshot (30_encoding.md R92, R93).
Register bits no line here reads are ignored (30_encoding.md R96). -/

namespace Sys2Proof.Machine

/-- Chip index i (CT_WRITE): A[0] unsigned. -/
def opChipIndex (x : Args) : Nat := x.a0.toNat

/-- Row r (CT_READ, CT_READ_UNCHECKED): A[0] unsigned. -/
def opRow (x : Args) : Nat := x.a0.toNat

/-- ROM index k (CAR_ROM_READ): A[0] unsigned. -/
def opRomIndex (x : Args) : Nat := x.a0.toNat

/-- Column c (CT_WRITE, CT_READ, CT_READ_UNCHECKED): A[1] unsigned. -/
def opColumn (x : Args) : Nat := x.a1.toNat

/-- Column c (CODE_SAMPLE): A[6] unsigned. -/
def opSampleColumn (x : Args) : Nat := x.a6.toNat

/-- Value v (CT_WRITE): A[2][7:0]; A[2][31:8] is ignored. -/
def opValue (x : Args) : Byte := x.a2.extractLsb' 0 8

/-- Code length L (CT_BUILD): A[0] unsigned. -/
def opBuildLength (x : Args) : Nat := x.a0.toNat

/-- Column count P_n (CT_BUILD): A[1] unsigned. -/
def opBuildColumns (x : Args) : Nat := x.a1.toNat

/-- Code length L (CODE_PHASE): A[1] unsigned. -/
def opPhaseLength (x : Args) : Nat := x.a1.toNat

/-- Count: A[1] unsigned. -/
def opCount (x : Args) : Nat := x.a1.toNat

/-- First sample n0, sample n: s32(A[0]). -/
def opSample (x : Args) : Int := x.a0.toInt

/-- Code increment inc: A[3]·2^32 + A[2], unsigned, in units of 2^-32 chip per sample. -/
def opIncrement (x : Args) : Nat := x.a3.toNat * 2 ^ 32 + x.a2.toNat

/-- Code offset ph0: s64({A[5], A[4]}), in units of 2^-32 chip. -/
def opOffset (x : Args) : Int := (x.a5 ++ x.a4 : BitVec 64).toInt

/-- FCW: A[2] unsigned, in units of 2^-32 turn per sample. -/
def opFcw (x : Args) : Nat := x.a2.toNat

/-- Phase θ0, phase φ: A[4], in units of 2^-32 turn. -/
def opPhase (x : Args) : Word := x.a4

end Sys2Proof.Machine
end

