-- ==== Sys2Proof/Machine/CodeSampler.lean ====
section
/-! DEFINITION. Code phase arithmetic (42_code_sampler.md R160, R161), the meanings of CODE_SAMPLE (R162) and
CODE_PHASE (R164), and the accumulator form of the sampler (R163). Every value is an exact integer in units of
2^-32 chip. -/

namespace Sys2Proof.Machine

/-- The count check of the commands that write OUT (40_engine.md R128): continue with `x` or raise. -/
def checkCount (s : State) (x : Execution) : Execution :=
  if s.cfg.bufDepth < opCount s.snap then .error .invalidParameter else x

/-- The code position of sample n (42_code_sampler.md R161). -/
def codePos (x : Args) (n : Int) : Int := opOffset x + n * (opIncrement x : Int)

/-- The chip index of a position: floor to whole chips, then a non-negative mod (42_code_sampler.md R161). -/
def codeIdx (pos : Int) (len : Nat) : Nat := ((pos / 2 ^ 32) % (len : Int)).toNat

/-- The interior row CODE_SAMPLE reads for its sample j (42_code_sampler.md R162). -/
def State.sampleRow (s : State) (j : Nat) : Nat :=
  codeIdx (codePos s.snap (opSample s.snap + (j : Int))) s.ctLen.toNat + 1

/-- The word CODE_SAMPLE writes to OUT[j]: the chip, sign-extended (42_code_sampler.md R162). -/
def State.sampleWord (s : State) (j : Nat) : Word :=
  (s.chipAt (s.sampleRow j) (opSampleColumn s.snap)).signExtend 32

/-- Does `p` hold of some number below n? -/
def anyBelow : Nat → (Nat → Bool) → Bool
  | 0, _ => false
  | n + 1, p => anyBelow n p || p n

/-- Does CODE_SAMPLE read a cell nothing has written (93_implementation_defined.md I3)? -/
def State.samplesUnwritten (s : State) : Bool :=
  anyBelow (opCount s.snap) (fun j => (s.cell (s.sampleRow j) (opSampleColumn s.snap)).isNone)

/-- CODE_SAMPLE (42_code_sampler.md R162), its checks in the order of 60_exceptions.md R212. -/
def codeSampleBody (s : State) : Execution :=
  if s.tableValid = false then .error .tableInvalid
  else if opIncrement s.snap = 0 then .error .invalidParameter
  else checkCount s
    (if s.ctPrns.toNat ≤ opSampleColumn s.snap then .error .outOfRange
     else .ok ((s.putOuts (opCount s.snap) s.sampleWord).noteUnwritten s.samplesUnwritten))

/-- CODE_SAMPLE (42_code_sampler.md R162). -/
def execCodeSample (s : State) : Host.Outcome State Fault Refusal := .next (s.conclude (codeSampleBody s))

/-- The centred residual ((pos + H) mod M) − H, with M = L·2^32 and H = L·2^31 (42_code_sampler.md R164). -/
def codeResidual (pos : Int) (len : Nat) : Int :=
  (pos + (len : Int) * 2 ^ 31) % ((len : Int) * 2 ^ 32) - (len : Int) * 2 ^ 31

/-- CODE_PHASE (42_code_sampler.md R164). -/
def codePhaseBody (s : State) : Execution :=
  if opPhaseLength s.snap = 0 then .error .invalidParameter
  else if opIncrement s.snap = 0 then .error .invalidParameter
  else
    let res := BitVec.ofInt 64 (codeResidual (codePos s.snap (opSample s.snap)) (opPhaseLength s.snap))
    .ok (s.setResults (res.extractLsb' 0 32) (res.extractLsb' 32 32))

/-- CODE_PHASE (42_code_sampler.md R164). -/
def execCodePhase (s : State) : Host.Outcome State Fault Refusal := .next (s.conclude (codePhaseBody s))

/-! The code phase accumulator an implementation may keep instead of multiplying (42_code_sampler.md R163). -/

/-- acc = pos(n0) mod (L·2^32). -/
def codeAccStart (x : Args) (len : Nat) : Nat :=
  (codePos x (opSample x) % ((len : Int) * 2 ^ 32)).toNat

/-- Add d = inc mod (L·2^32), subtracting L·2^32 once when the sum reaches it. -/
def codeAccNext (x : Args) (len acc : Nat) : Nat :=
  if len * 2 ^ 32 ≤ acc + opIncrement x % (len * 2 ^ 32) then
    acc + opIncrement x % (len * 2 ^ 32) - len * 2 ^ 32
  else acc + opIncrement x % (len * 2 ^ 32)

/-- The accumulator at sample j of a command. -/
def codeAccAt (x : Args) (len : Nat) : Nat → Nat
  | 0 => codeAccStart x len
  | j + 1 => codeAccNext x len (codeAccAt x len j)

end Sys2Proof.Machine
end

