-- ==== Sys2Proof/Machine/Rom.lean ====
section
/-! DEFINITION. The carrier ROM (43_carrier.md R180): the exact cosine, rounded to the nearest integer, by integer
arithmetic alone. An angle kπ/2^m and a dyadic threshold are compared by doubling the angle, cos 2θ = 2·cos²θ − 1,
until it is a multiple of π; no approximation is made at any step (log 12). -/

namespace Sys2Proof.Machine

/-- How cos(k·π/2^m), 0 ≤ k ≤ 2^m, compares with p/2^e. -/
def cosCompare : Nat → Nat → Int → Nat → Ordering
  | 0, k, p, e => compare (if k = 0 then (2 : Int) ^ e else -(2 : Int) ^ e) p
  | m + 1, k, p, e =>
    if k ≤ 2 ^ m then
      -- θ ≤ π/2: cos θ ≥ 0, and for p ≥ 0 the squares compare as the values do
      if p < 0 then .gt else cosCompare m k (2 * p * p - 2 ^ (2 * e)) (2 * e)
    else
      -- θ > π/2: cos θ < 0, and for p < 0 the squares compare the other way round; cos 2θ = cos (2π − 2θ)
      if 0 ≤ p then .lt else (cosCompare m (2 ^ (m + 1) - k) (2 * p * p - 2 ^ (2 * e)) (2 * e)).swap

/-- The greatest n in [acc, acc + 2^b) with n = acc or cos(k·π/2^(q+1))·2^a ≥ n − 1/2, found bit by bit. -/
def romSearch (q a k : Nat) : Nat → Nat → Nat
  | 0, acc => acc
  | b + 1, acc =>
    if cosCompare (q + 1) k (2 * ((acc + 2 ^ b : Nat) : Int) - 1) (a + 1) = .lt then romSearch q a k b acc
    else romSearch q a k b (acc + 2 ^ b)

/-- CT[k] = round_nearest(cos(k·π/2^(Q+1))·2^A) (43_carrier.md R180). -/
def romCos (q a k : Nat) : Nat := romSearch q a k (a + 1) 0

/-- ST[k] = CT[2^Q − k] (43_carrier.md R180). -/
def romSin (q a k : Nat) : Nat := romCos q a (2 ^ q - k)

end Sys2Proof.Machine
end

