-- ==== Sys2Proof/Machine/Carrier.lean ====
section
/-! DEFINITION. The quadrant fold and the carrier word (43_carrier.md R182 to R184), carrier phase generation (R186),
and the meanings of the five carrier commands (R187 to R191). -/

namespace Sys2Proof.Machine

/-- The parts of a phase word the fold uses (43_carrier.md R182, R183). -/
structure Fold where
  /-- The quadrant q of the phase word. -/
  quad : Fin 4
  /-- The quadrant q_eff the table serves. -/
  quadEff : Fin 4
  /-- The table index k. -/
  index : Nat
  deriving DecidableEq, Repr

/-- The residual r = φ[29:0] (43_carrier.md R182). -/
def residual (phi : Word) : Nat := phi.toNat % 2 ^ 30

/-- The quadrant q = φ[31:30] (43_carrier.md R182). -/
def quadrant (phi : Word) : Fin 4 := Fin.ofNat 4 (phi.toNat / 2 ^ 30)

/-- k_near: the nearest table index, ties to the larger (43_carrier.md R182), S = 30 − Q. -/
def nearestIndex (q r : Nat) : Nat := (r + 2 ^ (30 - q - 1)) / 2 ^ (30 - q)

/-- Decompose a phase word; on a quadrant boundary the lower quadrant's endpoint serves (43_carrier.md R183). -/
def foldPhase (q : Nat) (phi : Word) : Fold :=
  if residual phi = 0 ∧ quadrant phi ≠ 0 then
    { quad := quadrant phi, quadEff := quadrant phi - 1, index := 2 ^ q }
  else
    { quad := quadrant phi, quadEff := quadrant phi, index := nearestIndex q (residual phi) }

/-- (I, Q) of a quadrant and table index: the fold transform (43_carrier.md R184). -/
def foldTransform (c : Config) (quad : Fin 4) (k : Nat) : Int × Int :=
  match quad with
  | 0 => ((romCos c.q c.a k : Int), (romSin c.q c.a k : Int))
  | 1 => (-(romSin c.q c.a k : Int), (romCos c.q c.a k : Int))
  | 2 => (-(romCos c.q c.a k : Int), -(romSin c.q c.a k : Int))
  | 3 => ((romSin c.q c.a k : Int), -(romCos c.q c.a k : Int))

/-- (I, Q) of a phase word (43_carrier.md R184). -/
def carrierPair (c : Config) (phi : Word) : Int × Int :=
  foldTransform c (foldPhase c.q phi).quadEff (foldPhase c.q phi).index

/-- The output word of (I, Q): I in [15:0], Q in [31:16] (43_carrier.md R184). -/
def carrierPack (iq : Int × Int) : Word := BitVec.ofInt 16 iq.2 ++ BitVec.ofInt 16 iq.1

/-- carrier(φ) (43_carrier.md R184). -/
def carrier (c : Config) (phi : Word) : Word := carrierPack (carrierPair c phi)

/-- φ(j) = u32(θ0 + (n0 + j)·FCW), the product exact (43_carrier.md R186). -/
def phaseAt (x : Args) (j : Nat) : Word :=
  BitVec.ofInt 32 ((opPhase x).toNat + (opSample x + (j : Int)) * (opFcw x : Int))

/-- CAR_GEN (43_carrier.md R187). -/
def carGenBody (s : State) : Execution :=
  checkCount s (.ok (s.putOuts (opCount s.snap) (fun j => carrier s.cfg (phaseAt s.snap j))))

/-- CAR_GEN (43_carrier.md R187). -/
def execCarGen (s : State) : Host.Outcome State Fault Refusal := .next (s.conclude (carGenBody s))

/-- CAR_PHASES (43_carrier.md R188). -/
def carPhasesBody (s : State) : Execution :=
  checkCount s (.ok (s.putOuts (opCount s.snap) (phaseAt s.snap)))

/-- CAR_PHASES (43_carrier.md R188). -/
def execCarPhases (s : State) : Host.Outcome State Fault Refusal := .next (s.conclude (carPhasesBody s))

/-- The word CAR_LUT writes to OUT[j]: carrier(IN[j]) (43_carrier.md R189), or a free word where the host wrote
IN[j] while the command ran (70_reset_and_hazards.md R252; log 6). -/
def State.lutWord (s : State) (j : Nat) : Word :=
  if j ∈ s.raced then Config.freeWord s.draws (outAddr j) else carrier s.cfg (s.inWord j)

/-- CAR_LUT (43_carrier.md R189). -/
def carLutBody (s : State) : Execution :=
  checkCount s (.ok (s.putOuts (opCount s.snap) s.lutWord))

/-- CAR_LUT (43_carrier.md R189). -/
def execCarLut (s : State) : Host.Outcome State Fault Refusal := .next (s.conclude (carLutBody s))

/-- The diagnostic word of CAR_EVAL: k in [16:0], q_eff in [21:20], q in [23:22] (43_carrier.md R191). -/
def evalWord (f : Fold) : Word :=
  BitVec.ofNat 32 f.index ||| (BitVec.ofNat 32 f.quadEff.val <<< 20) ||| (BitVec.ofNat 32 f.quad.val <<< 22)

/-- CAR_EVAL (43_carrier.md R191). -/
def carEvalBody (s : State) : Execution :=
  .ok (s.setResults (carrier s.cfg (opPhase s.snap)) (evalWord (foldPhase s.cfg.q (opPhase s.snap))))

/-- CAR_EVAL (43_carrier.md R191). -/
def execCarEval (s : State) : Host.Outcome State Fault Refusal := .next (s.conclude (carEvalBody s))

/-- The word of a ROM entry: CT[k] in [15:0], ST[k] in [31:16] (43_carrier.md R190). -/
def romWord (c : Config) (k : Nat) : Word :=
  BitVec.ofNat 16 (romSin c.q c.a k) ++ BitVec.ofNat 16 (romCos c.q c.a k)

/-- CAR_ROM_READ (43_carrier.md R190). -/
def carRomReadBody (s : State) : Execution :=
  if 2 ^ s.cfg.q < opRomIndex s.snap then .error .outOfRange
  else .ok (s.setResults (romWord s.cfg (opRomIndex s.snap)) 0)

/-- CAR_ROM_READ (43_carrier.md R190). -/
def execCarRomRead (s : State) : Host.Outcome State Fault Refusal := .next (s.conclude (carRomReadBody s))

/-! The carrier phase accumulator an implementation may keep instead of multiplying (43_carrier.md R186). -/

/-- The accumulator at sample j: loaded with u32(θ0 + n0·FCW), then FCW added mod 2^32 per sample. -/
def carAccAt (x : Args) : Nat → Word
  | 0 => BitVec.ofInt 32 ((opPhase x).toNat + opSample x * (opFcw x : Int))
  | j + 1 => carAccAt x j + BitVec.ofNat 32 (opFcw x)

end Sys2Proof.Machine
end

