-- ==== Sys2Proof/Machine/CodeTable.lean ====
section
/-! DEFINITION. The meanings of the code table commands (41_code_table.md). TABLE_VALID was cleared at the acceptance
of CT_WRITE and CT_BUILD (40_engine.md R121), so their bodies do not clear it. -/

namespace Sys2Proof.Machine

/-- CT_WRITE: write one raw chip into interior row i + 1 (41_code_table.md R141). -/
def ctWriteBody (s : State) : Execution :=
  if s.cfg.lMax ≤ opChipIndex s.snap ∨ s.cfg.prnMax ≤ opColumn s.snap then .error .outOfRange
  else .ok (s.putChip (opChipIndex s.snap + 1) (opColumn s.snap) (some (opValue s.snap)))

/-- CT_WRITE (41_code_table.md R141). -/
def execCtWrite (s : State) : Host.Outcome State Fault Refusal := .next (s.conclude (ctWriteBody s))

/-- CT_BUILD: validate the shape, fill the guard rows, make the table reachable (41_code_table.md R143). -/
def ctBuildBody (s : State) : Execution :=
  if opBuildLength s.snap < 2 ∨ s.cfg.lMax < opBuildLength s.snap ∨
      opBuildColumns s.snap < 1 ∨ s.cfg.prnMax < opBuildColumns s.snap then .error .invalidInput
  else .ok (s.buildTable (opBuildLength s.snap) (opBuildColumns s.snap))

/-- CT_BUILD (41_code_table.md R143). -/
def execCtBuild (s : State) : Host.Outcome State Fault Refusal := .next (s.conclude (ctBuildBody s))

/-- Is (r, c) a cell of the built table: r ≤ CT_LEN + 1 and c < CT_PRNS (41_code_table.md R144, R145)? -/
def State.inTable (s : State) (r c : Nat) : Bool :=
  decide (r ≤ s.ctLen.toNat + 1) && decide (c < s.ctPrns.toNat)

/-- Read cell (r, c) into RESULT0, sign-extended, and 0 into RESULT1; an unwritten cell is recorded
(41_code_table.md R142, R144; 93_implementation_defined.md I3, log 2). -/
def State.readChip (s : State) (r c : Nat) : State :=
  (s.setResults ((s.chipAt r c).signExtend 32) 0).noteUnwritten (s.cell r c).isNone

/-- CT_READ: the bounds-checked read (41_code_table.md R144). -/
def ctReadBody (s : State) : Execution :=
  if s.tableValid = false then .error .tableInvalid
  else if s.inTable (opRow s.snap) (opColumn s.snap) then .ok (s.readChip (opRow s.snap) (opColumn s.snap))
  else .error .outOfRange

/-- CT_READ (41_code_table.md R144). -/
def execCtRead (s : State) : Host.Outcome State Fault Refusal := .next (s.conclude (ctReadBody s))

/-- The bus address of RESULT0, which names the free value of an unchecked read out of range
(20_memory.md R64; log 5). -/
def result0Addr : Nat := 0x00040

/-- The bus address of RESULT1 (20_memory.md R64). -/
def result1Addr : Nat := 0x00044

/-- CT_READ_UNCHECKED: no bounds check; out of range RESULT0 is any 32-bit value and nothing else changes
(41_code_table.md R145; 93_implementation_defined.md I2, log 5). -/
def ctReadUncheckedBody (s : State) : Execution :=
  if s.tableValid = false then .error .tableInvalid
  else if s.inTable (opRow s.snap) (opColumn s.snap) then .ok (s.readChip (opRow s.snap) (opColumn s.snap))
  else .ok (s.setResults (Config.freeWord s.draws result0Addr) 0)

/-- CT_READ_UNCHECKED (41_code_table.md R145). -/
def execCtReadUnchecked (s : State) : Host.Outcome State Fault Refusal :=
  .next (s.conclude (ctReadUncheckedBody s))

end Sys2Proof.Machine
end

