-- ==== Sys2Proof/Machine/System.lean ====
section
/-! DEFINITION. The meaning of NOP (40_engine.md R127). -/

namespace Sys2Proof.Machine

/-- NOP: `complete` (40_engine.md R127). -/
def nopBody (s : State) : Execution := .ok s

/-- NOP (40_engine.md R127). -/
def execNop (s : State) : Host.Outcome State Fault Refusal := .next (s.conclude (nopBody s))

end Sys2Proof.Machine
end

