-- ==== Sys2Proof/Machine/Dispatch.lean ====
section
/-! DEFINITION. The dispatch of 40_engine.md R126: one arm per command. -/

namespace Sys2Proof.Machine

def exec (i : Instr) (s : State) : Host.Outcome State Fault Refusal :=
  match i with
  | .nop => Sys2Proof.Machine.execNop s
  | .ctWrite => Sys2Proof.Machine.execCtWrite s
  | .ctBuild => Sys2Proof.Machine.execCtBuild s
  | .ctRead => Sys2Proof.Machine.execCtRead s
  | .ctReadUnchecked => Sys2Proof.Machine.execCtReadUnchecked s
  | .codeSample => Sys2Proof.Machine.execCodeSample s
  | .codePhase => Sys2Proof.Machine.execCodePhase s
  | .carGen => Sys2Proof.Machine.execCarGen s
  | .carPhases => Sys2Proof.Machine.execCarPhases s
  | .carLut => Sys2Proof.Machine.execCarLut s
  | .carEval => Sys2Proof.Machine.execCarEval s
  | .carRomRead => Sys2Proof.Machine.execCarRomRead s

end Sys2Proof.Machine
end

