-- ==== Sys2Proof/Machine/Flags.lean ====
section
/-! DEFINITION. The register words the host reads (10_state.md R24 to R33), the two registers a host write changes
bit by bit (R29, R30), and the interrupt output (60_exceptions.md R222). The RNCO has no flags but the STATUS bits
(10_state.md R41), and no command sets one from its data. -/

namespace Sys2Proof.Machine

/-- The four bits of STATUS.ERR (60_exceptions.md R210). -/
def StatusCode.bits (e : StatusCode) : BitVec 4 :=
  match e with
  | .ok => 0
  | .illegalCmd => 1
  | .invalidInput => 2
  | .invalidParameter => 3
  | .outOfRange => 4
  | .tableInvalid => 5

/-- ID: the constant 0x524E4301 (10_state.md R24). -/
def idWord : Word := 0x524E4301#32

/-- CFG0: QSP in [4:0], CAP in [12:8], the rest 0 (10_state.md R25). -/
def cfg0Word (c : Config) : Word := 0#19 ++ BitVec.ofNat 5 c.a ++ 0#3 ++ BitVec.ofNat 5 c.q

/-- CFG1: L_MAX in [23:0], the rest 0 (10_state.md R26). -/
def cfg1Word (c : Config) : Word := 0#8 ++ BitVec.ofNat 24 c.lMax

/-- CFG2: PRN_MAX in [31:16], BUF_DEPTH in [15:0] (10_state.md R27). -/
def cfg2Word (c : Config) : Word := BitVec.ofNat 16 c.prnMax ++ BitVec.ofNat 16 c.bufDepth

/-- STATUS: BUSY [0], DONE [1], TABLE_VALID [2], CMD_OVR [3], 0 [7:4], ERR [11:8], 0 [31:12] (10_state.md R28). -/
def State.statusWord (s : State) : Word :=
  0#20 ++ s.err.bits ++ 0#4 ++ BitVec.ofBool s.cmdOvr ++ BitVec.ofBool s.tableValid ++
    BitVec.ofBool s.done ++ BitVec.ofBool s.busy

/-- CTRL: IRQ_EN in [0], the rest 0 (10_state.md R30). -/
def State.ctrlWord (s : State) : Word := 0#31 ++ BitVec.ofBool s.irqEn

/-- CT_LEN: [31:24] read 0 (10_state.md R32). -/
def State.ctLenWord (s : State) : Word := s.ctLen.zeroExtend 32

/-- CT_PRNS: [31:16] read 0 (10_state.md R33). -/
def State.ctPrnsWord (s : State) : Word := s.ctPrns.zeroExtend 32

/-- A host write of `w` to STATUS: write one to clear DONE (bit 1) and CMD_OVR (bit 3), nothing more
(10_state.md R29). -/
def State.writeStatus (s : State) (w : Word) : State :=
  { s with
    done := if w.getLsbD 1 then false else s.done
    cmdOvr := if w.getLsbD 3 then false else s.cmdOvr }

/-- A host write of `w` to CTRL: bit 0 is IRQ_EN, the rest is ignored (10_state.md R30). -/
def State.writeCtrl (s : State) (w : Word) : State := { s with irqEn := w.getLsbD 0 }

/-- The level interrupt output (60_exceptions.md R222). -/
def State.irq (s : State) : Bool := s.irqEn && s.done

end Sys2Proof.Machine
end

