-- ==== Sys2Proof/Machine/HostPort.lean ====
section
/-! DEFINITION. The host's side of the register interface: the address map (20_memory.md R64), host reads (R66, R68;
40_engine.md R124), host writes (R66; 10_state.md), and reset (70_reset_and_hazards.md R240). -/

namespace Sys2Proof.Machine

/-- What an address of the host register space names (20_memory.md R64). -/
inductive Target where
  | id
  | cfg0
  | cfg1
  | cfg2
  | status
  | ctrl
  | cmd
  | arg (j : Fin 8)
  | result0
  | result1
  | ctLen
  | ctPrns
  | inBuf (i : Nat)
  | outBuf (i : Nat)
  | reserved
  deriving DecidableEq, Repr

/-- The registers, by word number (20_memory.md R64); a word that names none is reserved (R65). -/
def registerTarget (w : Nat) : Target :=
  match w with
  | 0x00 => .id
  | 0x01 => .cfg0
  | 0x02 => .cfg1
  | 0x03 => .cfg2
  | 0x04 => .status
  | 0x05 => .ctrl
  | 0x06 => .cmd
  | 0x08 => .arg 0
  | 0x09 => .arg 1
  | 0x0A => .arg 2
  | 0x0B => .arg 3
  | 0x0C => .arg 4
  | 0x0D => .arg 5
  | 0x0E => .arg 6
  | 0x0F => .arg 7
  | 0x10 => .result0
  | 0x11 => .result1
  | 0x12 => .ctLen
  | 0x13 => .ctPrns
  | _ => .reserved

/-- The map by word number, the byte offset divided by 4: IN, OUT, and everything else (20_memory.md R64, R65). -/
def wordTarget (c : Config) (w : Nat) : Target :=
  if 0x4000 ≤ w ∧ w < 0x8000 ∧ w - 0x4000 < c.bufDepth then .inBuf (w - 0x4000)
  else if 0x8000 ≤ w ∧ w < 0xC000 ∧ w - 0x8000 < c.bufDepth then .outBuf (w - 0x8000)
  else registerTarget w

/-- What a bus address names; address bits [1:0] are ignored (20_memory.md R62). -/
def target (c : Config) (addr : BusAddr) : Target := wordTarget c (addr.toNat / 4)

/-- Does a read of OUT[i] return any value: a command that writes OUT runs, and i < count (40_engine.md R124)? -/
def State.outBusy (s : State) (i : Nat) : Bool := s.running writesOut && decide (i < opCount s.snap)

/-- What a host read returns, and whether it is a fresh draw (40_engine.md R124; 93_implementation_defined.md I5,
log 4). -/
def State.readTarget (s : State) (t : Target) : Word × Bool :=
  match t with
  | .id => (idWord, false)
  | .cfg0 => (cfg0Word s.cfg, false)
  | .cfg1 => (cfg1Word s.cfg, false)
  | .cfg2 => (cfg2Word s.cfg, false)
  | .status => (s.statusWord, false)
  | .ctrl => (s.ctrlWord, false)
  | .cmd => (0, false)
  | .arg j => (s.args.get j, false)
  | .result0 =>
    if s.running writesResult then (Config.freeWord s.draws result0Addr, true) else (s.result0, false)
  | .result1 =>
    if s.running writesResult then (Config.freeWord s.draws result1Addr, true) else (s.result1, false)
  | .ctLen => (s.ctLenWord, false)
  | .ctPrns => (s.ctPrnsWord, false)
  | .inBuf i => (s.inWord i, false)
  | .outBuf i =>
    if s.outBusy i then (Config.freeWord s.draws (outAddr i), true) else (s.outWord i, false)
  | .reserved => (0, false)

/-- `MemRead(addr, 4)`: the word goes to the host and nothing else changes (20_memory.md R66); a fresh draw moves
the step number on (log 13). -/
def hostRead (addr : BusAddr) (s : State) : State :=
  { s with
    rdata := (s.readTarget (target s.cfg addr)).1
    draws := if (s.readTarget (target s.cfg addr)).2 then s.draws + 1 else s.draws }

/-- A write to CMD: acceptance, or, while a command runs, the write is dropped and CMD_OVR set
(40_engine.md R120, R121, R123). -/
def State.issue (s : State) (w : Word) : State :=
  if s.busy then { s with cmdOvr := true } else s.accept w

/-- Note that `IN[i]` was written under a running CAR_LUT that reads it (70_reset_and_hazards.md R252; log 6). -/
def State.noteRace (s : State) (i : Nat) : State :=
  if s.running (fun c => decide (c = .carLut)) ∧ i < opCount s.snap ∧ i ∉ s.raced then
    { s with raced := i :: s.raced }
  else s

/-- A host write of `w` to a target; the read-only ones and the reserved addresses ignore it
(10_state.md R22 to R33, R37, R38; 20_memory.md R64, R65). -/
def State.writeTarget (s : State) (t : Target) (w : Word) : State :=
  match t with
  | .id => s
  | .cfg0 => s
  | .cfg1 => s
  | .cfg2 => s
  | .status => s.writeStatus w
  | .ctrl => s.writeCtrl w
  | .cmd => s.issue w
  | .arg j => { s with args := s.args.set j w }
  | .result0 => s
  | .result1 => s
  | .ctLen => s
  | .ctPrns => s
  | .inBuf i => (s.putIn i w).noteRace i
  | .outBuf _ => s
  | .reserved => s

/-- The step number moves on (log 13). -/
def State.tick (s : State) : State := { s with draws := s.draws + 1 }

/-- `MemWrite(addr, 4, w)` (20_memory.md R61, R66). -/
def hostWrite (addr : BusAddr) (w : Word) (s : State) : State := (s.writeTarget (target s.cfg addr) w).tick

/-- Reset: every piece of state gets its value of 10_state.md R44, and a running command is aborted
(70_reset_and_hazards.md R240, R241). What is not the RNCO's stays: the moves to come, the word the host last read,
the recorded fault (log 17), and the step number, which moves on (log 13). -/
def hostReset (s : State) : State :=
  { State.resetWith s.cfg with
    pending := s.pending
    rdata := s.rdata
    fault := s.fault
    draws := s.draws + 1 }

end Sys2Proof.Machine
end

