-- ==== Sys2Proof/Machine/Engine.lean ====
section
/-! DEFINITION. The engine's completion step (40_engine.md R122, R126) and one move of the total order
(20_memory.md R70). -/

namespace Sys2Proof.Machine

/-- `execute(cmd)`: run the command the accepted word encodes; an illegal word raises ILLEGAL_CMD
(40_engine.md R126, 30_encoding.md R95). -/
def engineStep (s : State) : Host.Outcome State Fault Refusal :=
  match decode s.cmd with
  | .ok i => exec i s
  | .error _ => .next (s.conclude (.error .illegalCmd))

/-- The engine's turn: with BUSY = 1 its one enabled step (40_engine.md R122); with BUSY = 0 it is idle and nothing
changes (60_exceptions.md R225). -/
def engineTurn (s : State) : Host.Outcome State Fault Refusal :=
  if s.busy then engineStep s else .next s

/-- One move of the order. -/
def runMove (m : Move) (s : State) : Host.Outcome State Fault Refusal :=
  match m with
  | .read addr => .next (hostRead addr s)
  | .write addr w => .next (hostWrite addr w s)
  | .reset => .next (hostReset s)
  | .engine => engineTurn s

/-- The word of a table row becomes the command the engine runs next: it is accepted (40_engine.md R121), and the
next move is the engine's (log 14). -/
def State.loadCommand (s : State) (w : Word) : State :=
  { s.accept w with pending := .engine :: s.pending }

end Sys2Proof.Machine
end

