-- ==== Sys2Proof/Machine/Step.lean ====
section
/-! DEFINITION. One step of the machine, and the place an instruction is put so that the next step runs it. -/

namespace Sys2Proof.Machine

/-- One step: the oldest move to come; with none left the host is quiet and it is the engine's turn
(20_memory.md R70, 40_engine.md R125; log 7). -/
def step (s : State) : Host.Outcome State Fault Refusal :=
  match s.pending with
  | [] => Sys2Proof.Machine.engineTurn s
  | m :: rest => Sys2Proof.Machine.runMove m { s with pending := rest }

/-- `s` with the instruction of a table row as the running command, the engine's step coming next. The RNCO
fetches nothing (70_reset_and_hazards.md R242): a command comes from a CMD write, and this stands for it (log 14). -/
def State.withFetchWord (s : State) (nbits w : Nat) : State :=
  Sys2Proof.Machine.State.loadCommand s (Sys2Proof.tableWord nbits w)

end Sys2Proof.Machine
end

