-- ==== Sys2Proof/Safety.lean ====
section
/-! DEFINITION. The terms claims are made in: the invariant of the machine, what a command leaves unchanged, what a
safe state is, and a host's command as one operation. -/

namespace Sys2Proof.Machine

/-- A state of a safe run: no read of an unwritten code-table cell has been recorded (93_implementation_defined.md
I3). A recorded fault refutes every observation of the run. -/
def State.safe (s : State) : Prop := s.fault = none

/-! ## The invariant -/

/-- CT_LEN and CT_PRNS: nothing built yet, or the shape of the last successful CT_BUILD (10_state.md R32 to R34;
41_code_table.md R143). -/
def State.ShapeOk (s : State) : Prop :=
  (s.ctLen.toNat = 0 ∧ s.ctPrns.toNat = 0 ∧ s.tableValid = false) ∨
  (2 ≤ s.ctLen.toNat ∧ s.ctLen.toNat ≤ s.cfg.lMax ∧ 1 ≤ s.ctPrns.toNat ∧ s.ctPrns.toNat ≤ s.cfg.prnMax)

/-- What holds of every state a run reaches. -/
structure State.Inv (s : State) : Prop where
  /-- The configuration is in range (00_scope.md R10, R11). -/
  config : s.cfg.wf = true
  /-- The code table is in canonical form. -/
  tableCanonical : Memory.wf s.table
  /-- Every written cell has a row in 0 … L_MAX + 1 and a column below PRN_MAX (10_state.md R35). -/
  tableCells : ∀ x ∈ s.table, x.1 / 65536 ≤ s.cfg.lMax + 1 ∧ x.1 % 65536 < s.cfg.prnMax
  /-- The buffers are in canonical form. -/
  memCanonical : Memory.wf s.mem
  /-- Every written byte lies in IN or OUT (20_memory.md R64). -/
  memBytes : ∀ x ∈ s.mem, (0x10000 ≤ x.1 ∧ x.1 < 0x10000 + 4 * s.cfg.bufDepth) ∨
    (0x20000 ≤ x.1 ∧ x.1 < 0x20000 + 4 * s.cfg.bufDepth)
  /-- Words are written whole (20_memory.md R62): a byte is written when its word's lowest byte is. -/
  memWords : ∀ n, (Memory.byteAt s.mem n).isSome = (Memory.byteAt s.mem (4 * (n / 4))).isSome
  /-- The table's shape. -/
  shape : s.ShapeOk
  /-- While BUSY = 1: DONE = 0, ERR = OK, and a running CT_WRITE or CT_BUILD has cleared TABLE_VALID
  (40_engine.md R121, R124). -/
  busyFlags : s.busy = true → s.done = false ∧ s.err = .ok ∧
    ((s.cmd = 0x00000001#32 ∨ s.cmd = 0x00000002#32) → s.tableValid = false)
  /-- While BUSY = 0 the engine holds no command (10_state.md R39; log 9). -/
  idleHolds : s.busy = false → s.cmd = 0 ∧ s.snap = Args.zero ∧ s.raced = []
  /-- The raced IN words are words of the buffer, each noted once. -/
  racedWords : s.raced.Nodup ∧ ∀ j ∈ s.raced, j < s.cfg.bufDepth

/-- While the table is reachable its guard rows are copies: row 0 of row CT_LEN, row CT_LEN + 1 of row 1
(41_code_table.md R140). -/
def State.GuardRows (s : State) : Prop :=
  s.tableValid = true → ∀ c, c < s.ctPrns.toNat →
    s.cell 0 c = s.cell s.ctLen.toNat c ∧ s.cell (s.ctLen.toNat + 1) c = s.cell 1 c

/-! ## Frames -/

/-- `t` is `s` after a command that completed with code `e` (40_engine.md R122), in the parts that every completion
treats alike: ERR, DONE and BUSY are written, and CFG0 to CFG2, CMD_OVR, CTRL, ARG0 to ARG7, the word last read and the
moves to come are unchanged. The engine's hidden state is not the command's result (10_state.md R39), and the step
number is no register (log 13): neither is spoken of. -/
structure Completed (s t : State) (e : StatusCode) : Prop where
  err : t.err = e
  done : t.done = true
  busy : t.busy = false
  cfg : t.cfg = s.cfg
  cmdOvr : t.cmdOvr = s.cmdOvr
  irqEn : t.irqEn = s.irqEn
  args : t.args = s.args
  rdata : t.rdata = s.rdata
  pending : t.pending = s.pending

/-- RESULT0 and RESULT1 are unchanged. -/
structure SameResults (s t : State) : Prop where
  result0 : t.result0 = s.result0
  result1 : t.result1 = s.result1

/-- The shape of the table and TABLE_VALID are unchanged. -/
structure SameShape (s t : State) : Prop where
  tableValid : t.tableValid = s.tableValid
  ctLen : t.ctLen = s.ctLen
  ctPrns : t.ctPrns = s.ctPrns

/-- Every code-table cell reads as before. -/
def SameCells (s t : State) : Prop := ∀ k, Memory.byteAt t.table k = Memory.byteAt s.table k

/-- Every byte of IN and OUT reads as before. -/
def SameBuffers (s t : State) : Prop := ∀ a, Memory.byteAt t.mem a = Memory.byteAt s.mem a

/-- The fault record is unchanged. -/
def SameFault (s t : State) : Prop := t.fault = s.fault

/-- `t` is `s` after a command that raised `e`: the completion writes and nothing else (60_exceptions.md R211). -/
structure Raised (s t : State) (e : StatusCode) : Prop where
  completed : Completed s t e
  results : SameResults s t
  shape : SameShape s t
  cells : SameCells s t
  buffers : SameBuffers s t
  fault : SameFault s t

/-- `t` is `s` after a command that completed `OK` and wrote RESULT0 and RESULT1 only (10_state.md R23). -/
structure WroteResults (s t : State) (r0 r1 : Word) : Prop where
  completed : Completed s t .ok
  result0 : t.result0 = r0
  result1 : t.result1 = r1
  shape : SameShape s t
  cells : SameCells s t
  buffers : SameBuffers s t

/-- `t` is `s` after a command that completed `OK` and wrote OUT[j] <- f j for j < n, and no other byte of the
buffers (10_state.md R38). -/
structure WroteOuts (s t : State) (n : Nat) (f : Nat → Word) : Prop where
  completed : Completed s t .ok
  results : SameResults s t
  shape : SameShape s t
  cells : SameCells s t
  words : ∀ j, j < n → Memory.wordAt t.mem (outAddr j) = some (f j)
  others : ∀ a, a < outAddr 0 ∨ outAddr n ≤ a → Memory.byteAt t.mem a = Memory.byteAt s.mem a

/-! ## A host's command as one operation -/

/-- The host writes the argument registers and CMD to an idle RNCO, and the engine completes the command
(40_engine.md R120 to R122). -/
def State.runCommand (s : State) (i : Instr) (x : Args) : State :=
  match exec i (State.accept { s with args := x } (encode i)) with
  | .next t => t
  | .fault _ => s
  | .refused _ => s

/-- Argument words 0 and 1, the rest 0. -/
def args2 (x y : Nat) : Args := { Args.zero with a0 := BitVec.ofNat 32 x, a1 := BitVec.ofNat 32 y }

/-- Write the chips of column `p` from chip index `i` on, one CT_WRITE each (41_code_table.md R147). -/
def loadChips (p : Nat) : List Byte → Nat → State → State
  | [], _, s => s
  | b :: bs, i, s =>
    loadChips p bs (i + 1) (s.runCommand .ctWrite { args2 i p with a2 := b.signExtend 32 })

end Sys2Proof.Machine
end

