-- ==== Sys2Proof/Certificates/Slice0/Obligations.lean ====
section
/-! DEFINITION. The statements for the provers, from the numbered rules of spec/. Each is about every state, every
configuration in range and every free value. -/

open Sys2Proof Sys2Proof.Machine

/-! ## Encoding and decoding -/

/-- 30_encoding.md R94: the opcode map, each word written out from its row. -/
def Obligations.OpcodeMapDecodes : Prop :=
  decode 0b00000000000000000000000000000000#32 = .ok .nop ∧
  decode 0b00000000000000000000000000000001#32 = .ok .ctWrite ∧
  decode 0b00000000000000000000000000000010#32 = .ok .ctBuild ∧
  decode 0b00000000000000000000000000000011#32 = .ok .ctRead ∧
  decode 0b00000000000000000000000000000100#32 = .ok .ctReadUnchecked ∧
  decode 0b00000000000000000000000000010000#32 = .ok .codeSample ∧
  decode 0b00000000000000000000000000010001#32 = .ok .codePhase ∧
  decode 0b00000000000000000000000000100000#32 = .ok .carGen ∧
  decode 0b00000000000000000000000000100001#32 = .ok .carPhases ∧
  decode 0b00000000000000000000000000100010#32 = .ok .carLut ∧
  decode 0b00000000000000000000000000100011#32 = .ok .carEval ∧
  decode 0b00000000000000000000000000100100#32 = .ok .carRomRead

/-- 30_encoding.md R90, R94: decode and encode agree in both directions, so no bit of a command word is dropped and
no two words mean one command. -/
def Obligations.DecodeEncodeAgree : Prop :=
  ∀ (w : Word) (i : Instr), decode w = .ok i ↔ w = encode i

/-- 30_encoding.md R95: a word decodes exactly if it is legal; an illegal one is rejected by name, for its reserved
bits first. -/
def Obligations.IllegalWordsAreRejectedByName : Prop :=
  ∀ w : Word, ((∃ i, decode w = .ok i) ↔ legalCommand w = true) ∧
    (w.toNat / 256 ≠ 0 → decode w = .error .reservedBits) ∧
    (w.toNat / 256 = 0 → legalCommand w = false → decode w = .error .unknownOpcode)

/-! ## Steps -/

/-- 40_engine.md R122, R126: with BUSY = 1 and the engine's turn, the step is `exec` of the command the accepted word
decodes to, and nothing is added around it but that the turn is taken from the moves to come. -/
def Obligations.StepRunsTheDecodedCommand : Prop :=
  ∀ (s : State) (i : Instr), s.busy = true → decode s.cmd = .ok i →
    (s.pending = [] → step s = exec i s) ∧
    (∀ rest, s.pending = .engine :: rest → step s = exec i { s with pending := rest })

/-- 30_encoding.md R95, 40_engine.md R126: the execution of an illegal word raises ILLEGAL_CMD with no other effect, on
either form of the engine's turn. -/
def Obligations.IllegalCommandRaises : Prop :=
  ∀ s : State, s.busy = true → legalCommand s.cmd = false →
    (s.pending = [] → ∃ t, step s = .next t ∧ Raised s t .illegalCmd) ∧
    (∀ rest, s.pending = .engine :: rest →
      ∃ t, step s = .next t ∧ Raised { s with pending := rest } t .illegalCmd)

/-- 60_exceptions.md R225: with BUSY = 0 the engine's turn changes nothing. -/
def Obligations.IdleEngineTurnChangesNothing : Prop :=
  ∀ s : State, s.busy = false →
    (s.pending = [] → step s = .next s) ∧
    (∀ rest, s.pending = .engine :: rest → step s = .next { s with pending := rest })

/-- 20_memory.md R65, 60_exceptions.md R211, R215: no step stops: there is no bus error and no trap, and a raised
command completes. -/
def Obligations.EveryStepAnswersANextState : Prop :=
  ∀ s : State, ∃ t, step s = .next t

/-- 40_engine.md R125: once the moves to come are taken, a running command completes: after one step more than there
are moves, BUSY = 0. -/
def Obligations.EveryAcceptedCommandCompletes : Prop :=
  ∀ s : State, ∃ t : State,
    Host.Core.run Sys2Proof.core (s.pending.length + 1) s = .next t ∧ t.busy = false ∧ t.pending = []

/-! ## The host's side -/

/-- 40_engine.md R121: acceptance of any word written to CMD while BUSY = 0, whatever the word; nothing but what R121
lists changes. -/
def Obligations.CommandWriteIsAccepted : Prop :=
  ∀ (s : State) (addr : BusAddr) (w : Word) (rest : List Move),
    addr.toNat / 4 = 0x00018 / 4 → s.pending = .write addr w :: rest → s.busy = false →
    ∃ t, step s = .next t ∧
      t.cmd = w ∧ t.snap = s.args ∧ t.busy = true ∧ t.done = false ∧ t.err = .ok ∧
      ((w = 0x00000001#32 ∨ w = 0x00000002#32) → t.tableValid = false) ∧
      (¬(w = 0x00000001#32 ∨ w = 0x00000002#32) → t.tableValid = s.tableValid) ∧
      t.cmdOvr = s.cmdOvr ∧ t.irqEn = s.irqEn ∧ t.args = s.args ∧ t.cfg = s.cfg ∧
      SameResults s t ∧ t.ctLen = s.ctLen ∧ t.ctPrns = s.ctPrns ∧ SameCells s t ∧ SameBuffers s t ∧
      SameFault s t ∧ t.rdata = s.rdata ∧ t.pending = rest

/-- 40_engine.md R123: a CMD write while BUSY = 1 sets CMD_OVR and has no other effect (d: the model's step
number, log 13). -/
def Obligations.CommandWriteWhileBusyIsDropped : Prop :=
  ∀ (s : State) (addr : BusAddr) (w : Word) (rest : List Move),
    addr.toNat / 4 = 0x00018 / 4 → s.pending = .write addr w :: rest → s.busy = true →
    ∃ d, step s = .next { s with cmdOvr := true, draws := d, pending := rest }

/-- 10_state.md R29: a host write of w to STATUS clears DONE if w[1] = 1 and CMD_OVR if w[3] = 1, and nothing more
(d: the model's step number, log 13). -/
def Obligations.StatusWriteClearsOnlyDoneAndOverrun : Prop :=
  ∀ (s : State) (addr : BusAddr) (w : Word) (rest : List Move),
    addr.toNat / 4 = 0x00010 / 4 → s.pending = .write addr w :: rest →
    ∃ d, step s = .next { s with
      done := s.done && !w[1], cmdOvr := s.cmdOvr && !w[3], draws := d, pending := rest }

/-- 10_state.md R30: CTRL bit 0 is IRQ_EN; a write to the other bits is ignored and they read 0; reset value 0 (d: the
model's step number, log 13). -/
def Obligations.ControlWriteAndRead : Prop :=
  ∀ (s : State) (addr : BusAddr) (rest : List Move), addr.toNat / 4 = 0x00014 / 4 →
    (∀ w, s.pending = .write addr w :: rest →
      ∃ d, step s = .next { s with irqEn := w[0], draws := d, pending := rest }) ∧
    (s.pending = .read addr :: rest →
      ∃ t, step s = .next t ∧ t.rdata.toNat = s.irqEn.toNat ∧ t.irqEn = s.irqEn) ∧
    (s.pending = .reset :: rest → ∃ t, step s = .next t ∧ t.irqEn = false)

/-- 10_state.md R22: a host write to ARG j changes that register alone, at any time, and a read returns the last value
written (d: the model's step number, log 13). -/
def Obligations.ArgumentWriteAndRead : Prop :=
  ∀ (s : State) (addr : BusAddr) (j : Fin 8) (rest : List Move), addr.toNat / 4 = (0x00020 + 4 * j.val) / 4 →
    (∀ w, s.pending = .write addr w :: rest →
      ∃ x d, step s = .next { s with args := x, draws := d, pending := rest } ∧
        x.get j = w ∧ ∀ k, k ≠ j → x.get k = s.args.get k) ∧
    (s.pending = .read addr :: rest →
      ∃ t, step s = .next t ∧ t.rdata = s.args.get j ∧ t.args = s.args)

/-- 20_memory.md R66: no host read has a side effect: only the word returned, the step number of a fresh draw (log 13)
and the moves to come differ after it. -/
def Obligations.HostReadsHaveNoSideEffect : Prop :=
  ∀ (s : State) (addr : BusAddr) (rest : List Move), s.pending = .read addr :: rest →
    ∃ v d, step s = .next { s with rdata := v, draws := d, pending := rest }

/-- 20_memory.md R65, 10_state.md R31: CMD and the reserved addresses read 0, and a reserved address ignores writes; so do
the read-only RESULT0, RESULT1, CT_LEN, CT_PRNS and OUT (10_state.md R23, R32, R33, R38; d: the model's step number,
log 13). -/
def Obligations.ReservedAndReadOnlyAddresses : Prop :=
  ∀ (s : State) (addr : BusAddr) (rest : List Move), s.cfg.bufDepth ≤ 16384 →
    let off := addr.toNat / 4 * 4
    let hole := off = 0x0001C ∨ (0x00050 ≤ off ∧ off < 0x10000) ∨
      (0x10000 + 4 * s.cfg.bufDepth ≤ off ∧ off < 0x20000) ∨
      (0x20000 + 4 * s.cfg.bufDepth ≤ off ∧ off < 0x30000) ∨ 0x30000 ≤ off
    let readOnly := (0x00040 ≤ off ∧ off ≤ 0x0004C) ∨ (0x20000 ≤ off ∧ off < 0x20000 + 4 * s.cfg.bufDepth)
    ((hole ∨ off = 0x00018) → s.pending = .read addr :: rest →
      step s = .next { s with rdata := 0, pending := rest }) ∧
    (∀ w, (hole ∨ readOnly) → s.pending = .write addr w :: rest →
      ∃ d, step s = .next { s with draws := d, pending := rest })

/-- 10_state.md R24 to R27: ID, CFG0, CFG1 and CFG2 read their constants, in every state and so after reset too, and a
write to them is ignored (d: the model's step number, log 13). -/
def Obligations.IdentityAndConfigurationAreConstant : Prop :=
  ∀ (s : State) (addr : BusAddr) (rest : List Move), s.cfg.wf = true →
    (s.pending = .read addr :: rest → ∃ t, step s = .next t ∧
      (addr.toNat / 4 = 0 → t.rdata = 0x524E4301#32) ∧
      (addr.toNat / 4 = 1 → t.rdata.toNat = s.cfg.q + 2 ^ 8 * s.cfg.a) ∧
      (addr.toNat / 4 = 2 → t.rdata.toNat = s.cfg.lMax) ∧
      (addr.toNat / 4 = 3 → t.rdata.toNat = s.cfg.bufDepth + 2 ^ 16 * s.cfg.prnMax)) ∧
    (∀ w, addr.toNat / 4 < 4 → s.pending = .write addr w :: rest →
      ∃ d, step s = .next { s with draws := d, pending := rest })

/-- 10_state.md R28, 60_exceptions.md R210: the STATUS word, bit by bit, as a host read returns it, with the number of
each status code in [11:8]; R32, R33: CT_LEN and CT_PRNS. -/
def Obligations.StatusAndShapeReadBack : Prop :=
  ∀ (s : State) (addr : BusAddr) (rest : List Move), s.pending = .read addr :: rest →
    let code : Nat :=
      match s.err with
      | .ok => 0
      | .illegalCmd => 1
      | .invalidInput => 2
      | .invalidParameter => 3
      | .outOfRange => 4
      | .tableInvalid => 5
    ∃ t, step s = .next t ∧
      (addr.toNat / 4 = 0x00010 / 4 → t.rdata.toNat =
        s.busy.toNat + 2 * s.done.toNat + 4 * s.tableValid.toNat + 8 * s.cmdOvr.toNat + 2 ^ 8 * code) ∧
      (addr.toNat / 4 = 0x00048 / 4 → t.rdata.toNat = s.ctLen.toNat) ∧
      (addr.toNat / 4 = 0x0004C / 4 → t.rdata.toNat = s.ctPrns.toNat)

/-- 40_engine.md R124: OUT[i] with i < count reads any value while a command that writes OUT runs, and otherwise OUT
reads exactly (an unwritten word reads any value, log 3). -/
def Obligations.OutReadsExactExceptUnderAnOutCommand : Prop :=
  ∀ (s : State) (addr : BusAddr) (i : Nat) (rest : List Move),
    addr.toNat / 4 = (0x20000 + 4 * i) / 4 → i < s.cfg.bufDepth → s.cfg.bufDepth ≤ 16384 →
    s.pending = .read addr :: rest →
    let drawn := s.busy = true ∧ i < s.snap.a1.toNat ∧
      (decode s.cmd = .ok .codeSample ∨ decode s.cmd = .ok .carGen ∨ decode s.cmd = .ok .carPhases ∨
        decode s.cmd = .ok .carLut)
    ∃ t, step s = .next t ∧
      (drawn → t.rdata = Config.freeWord s.draws (0x20000 + 4 * i) ∧ t.draws = s.draws + 1) ∧
      (¬drawn → t.draws = s.draws ∧ ∀ w, Memory.wordAt s.mem (0x20000 + 4 * i) = some w → t.rdata = w)

/-- 40_engine.md R124: RESULT0 and RESULT1 read any value while a command that writes them runs, and otherwise
exactly. -/
def Obligations.ResultReadsExactExceptUnderAResultCommand : Prop :=
  ∀ (s : State) (addr : BusAddr) (rest : List Move), s.pending = .read addr :: rest →
    let drawn := s.busy = true ∧
      (decode s.cmd = .ok .ctRead ∨ decode s.cmd = .ok .ctReadUnchecked ∨ decode s.cmd = .ok .codePhase ∨
        decode s.cmd = .ok .carEval ∨ decode s.cmd = .ok .carRomRead)
    ∃ t, step s = .next t ∧
      (addr.toNat / 4 = 0x00040 / 4 → drawn →
        t.rdata = Config.freeWord s.draws 0x00040 ∧ t.draws = s.draws + 1) ∧
      (addr.toNat / 4 = 0x00040 / 4 → ¬drawn → t.rdata = s.result0 ∧ t.draws = s.draws) ∧
      (addr.toNat / 4 = 0x00044 / 4 → drawn →
        t.rdata = Config.freeWord s.draws 0x00044 ∧ t.draws = s.draws + 1) ∧
      (addr.toNat / 4 = 0x00044 / 4 → ¬drawn → t.rdata = s.result1 ∧ t.draws = s.draws)

/-- 10_state.md R37, 70_reset_and_hazards.md R252: a host write to IN[i] stores the word, at any time, and no other
byte; under a running CAR_LUT that reads IN[i] it is noted as a race (log 6). A read returns what IN[i] holds. -/
def Obligations.InWriteAndRead : Prop :=
  ∀ (s : State) (addr : BusAddr) (i : Nat) (rest : List Move),
    addr.toNat / 4 = (0x10000 + 4 * i) / 4 → i < s.cfg.bufDepth → i < 16384 →
    (∀ w, s.pending = .write addr w :: rest →
      ∃ m r d, step s = .next { s with mem := m, raced := r, draws := d, pending := rest } ∧
        Memory.wordAt m (0x10000 + 4 * i) = some w ∧
        (∀ a, a < 0x10000 + 4 * i ∨ 0x10000 + 4 * i + 4 ≤ a → Memory.byteAt m a = Memory.byteAt s.mem a) ∧
        (s.busy = true ∧ decode s.cmd = .ok .carLut ∧ i < s.snap.a1.toNat → ∀ k, k ∈ r ↔ k = i ∨ k ∈ s.raced) ∧
        (¬(s.busy = true ∧ decode s.cmd = .ok .carLut ∧ i < s.snap.a1.toNat) → r = s.raced)) ∧
    (s.pending = .read addr :: rest → ∃ t, step s = .next t ∧ t.draws = s.draws ∧
      (∀ w, Memory.wordAt s.mem (0x10000 + 4 * i) = some w → t.rdata = w) ∧
      (Memory.wordAt s.mem (0x10000 + 4 * i) = none → t.rdata = Config.freeWord s.draws (0x10000 + 4 * i)))

/-- 70_reset_and_hazards.md R240, R241; 10_state.md R44: the reset step, from any state, a running command aborted with
none of its writes. (What is not the RNCO's state stays: log 17.) -/
def Obligations.ResetStepGivesTheResetValues : Prop :=
  ∀ (s : State) (rest : List Move), s.pending = .reset :: rest →
    ∃ t, step s = .next t ∧
      t.statusWord = 0 ∧ t.ctrlWord = 0 ∧ (∀ j, t.args.get j = 0) ∧ t.result0 = 0 ∧ t.result1 = 0 ∧
      t.ctLenWord = 0 ∧ t.ctPrnsWord = 0 ∧ (∀ r c, t.cell r c = none) ∧ (∀ a, Memory.wordAt t.mem a = none) ∧
      t.irq = false ∧ t.busy = false ∧ t.cfg = s.cfg ∧
      t.pending = rest ∧ t.rdata = s.rdata ∧ t.fault = s.fault

/-- 10_state.md R44, 70_reset_and_hazards.md R244: the clean-entry state; the configuration is some configuration in
range (log 1). -/
def Obligations.ResetStateIsTheCleanEntryState : Prop :=
  State.reset.statusWord = 0 ∧ State.reset.ctrlWord = 0 ∧ (∀ j, State.reset.args.get j = 0) ∧
  State.reset.result0 = 0 ∧ State.reset.result1 = 0 ∧ State.reset.ctLenWord = 0 ∧ State.reset.ctPrnsWord = 0 ∧
  (∀ r c, State.reset.cell r c = none) ∧ (∀ a, Memory.wordAt State.reset.mem a = none) ∧
  State.reset.irq = false ∧ State.reset.busy = false ∧ idWord = 0x524E4301#32 ∧ State.reset.cfg.wf = true

/-- 60_exceptions.md R222: irq = IRQ_EN and DONE; it rises at every completion while IRQ_EN = 1 and when IRQ_EN is set
while DONE = 1; it falls when DONE is cleared, when IRQ_EN is cleared, at an acceptance and at reset. -/
def Obligations.InterruptLevel : Prop :=
  ∀ s t : State, step s = .next t →
    (s.irq = true ↔ s.irqEn = true ∧ s.done = true) ∧
    (s.busy = true → (s.pending = [] ∨ ∃ rest, s.pending = .engine :: rest) → t.irq = s.irqEn) ∧
    (∀ addr w rest, s.pending = .write addr w :: rest →
      (addr.toNat / 4 = 0x00014 / 4 → t.irq = (w[0] && s.done)) ∧
      (addr.toNat / 4 = 0x00010 / 4 → t.irq = (s.irq && !w[1])) ∧
      (addr.toNat / 4 = 0x00018 / 4 → s.busy = false → t.irq = false)) ∧
    (∀ rest, s.pending = .reset :: rest → t.irq = false)

/-! ## NOP and the code table -/

/-- 40_engine.md R127: NOP completes with OK and changes nothing else. -/
def Obligations.NopCompletes : Prop :=
  ∀ s : State, ∃ t, exec .nop s = .next t ∧ Completed s t .ok ∧
    SameResults s t ∧ SameShape s t ∧ SameCells s t ∧ SameBuffers s t ∧ SameFault s t

/-- 41_code_table.md R141: CT_WRITE writes cell T[i+1][c] <- A[2][7:0] and nothing else, or raises OUT_OF_RANGE; issued
by the host, it leaves TABLE_VALID = 0 either way. -/
def Obligations.CtWriteStoresOneChip : Prop :=
  ∀ s : State,
    (s.snap.a0.toNat < s.cfg.lMax → s.snap.a1.toNat < s.cfg.prnMax →
      ∃ t, exec .ctWrite s = .next t ∧ Completed s t .ok ∧
        t.cell (s.snap.a0.toNat + 1) s.snap.a1.toNat = some (s.snap.a2.extractLsb' 0 8) ∧
        (∀ k, k ≠ cellKey (s.snap.a0.toNat + 1) s.snap.a1.toNat →
          Memory.byteAt t.table k = Memory.byteAt s.table k) ∧
        SameResults s t ∧ SameShape s t ∧ SameBuffers s t ∧ SameFault s t) ∧
    (s.cfg.lMax ≤ s.snap.a0.toNat ∨ s.cfg.prnMax ≤ s.snap.a1.toNat →
      ∃ t, exec .ctWrite s = .next t ∧ Raised s t .outOfRange) ∧
    (∀ x, (s.runCommand .ctWrite x).tableValid = false)

/-- 41_code_table.md R143: CT_BUILD with a shape in range fills the guard rows of columns c < P_n, sets CT_LEN and CT_PRNS
and TABLE_VALID, and changes nothing else. On a shape out of range it raises INVALID_INPUT and changes nothing, and no
partly built table is reachable: issued by the host, it leaves TABLE_VALID = 0. -/
def Obligations.CtBuildFillsTheGuardRowsOrRejects : Prop :=
  ∀ s : State, s.cfg.wf = true →
    (2 ≤ s.snap.a0.toNat → s.snap.a0.toNat ≤ s.cfg.lMax → 1 ≤ s.snap.a1.toNat → s.snap.a1.toNat ≤ s.cfg.prnMax →
      ∃ t, exec .ctBuild s = .next t ∧ Completed s t .ok ∧
        t.tableValid = true ∧ t.ctLenWord = s.snap.a0 ∧ t.ctPrnsWord = s.snap.a1 ∧
        (∀ c, c < s.snap.a1.toNat →
          t.cell 0 c = s.cell s.snap.a0.toNat c ∧ t.cell (s.snap.a0.toNat + 1) c = s.cell 1 c) ∧
        (∀ k, (∀ c, c < s.snap.a1.toNat → k ≠ cellKey 0 c ∧ k ≠ cellKey (s.snap.a0.toNat + 1) c) →
          Memory.byteAt t.table k = Memory.byteAt s.table k) ∧
        SameResults s t ∧ SameBuffers s t ∧ SameFault s t) ∧
    (s.snap.a0.toNat < 2 ∨ s.cfg.lMax < s.snap.a0.toNat ∨ s.snap.a1.toNat < 1 ∨ s.cfg.prnMax < s.snap.a1.toNat →
      ∃ t, exec .ctBuild s = .next t ∧ Raised s t .invalidInput) ∧
    (∀ x : Args, (x.a0.toNat < 2 ∨ s.cfg.lMax < x.a0.toNat ∨ x.a1.toNat < 1 ∨ s.cfg.prnMax < x.a1.toNat) →
      (s.runCommand .ctBuild x).tableValid = false)

/-- 41_code_table.md R144: CT_READ. A written cell reads sign-extended; an unwritten one reads as a free chip and is
recorded (log 2); TABLE_INVALID without a table, OUT_OF_RANGE outside it. -/
def Obligations.CtReadReturnsTheChip : Prop :=
  ∀ s : State, ∃ t, exec .ctRead s = .next t ∧
    (s.tableValid = false → Raised s t .tableInvalid) ∧
    (s.tableValid = true → (s.ctLen.toNat + 1 < s.snap.a0.toNat ∨ s.ctPrns.toNat ≤ s.snap.a1.toNat) →
      Raised s t .outOfRange) ∧
    (s.tableValid = true → s.snap.a0.toNat ≤ s.ctLen.toNat + 1 → s.snap.a1.toNat < s.ctPrns.toNat →
      (∀ b, s.cell s.snap.a0.toNat s.snap.a1.toNat = some b →
        WroteResults s t (b.signExtend 32) 0 ∧ SameFault s t) ∧
      (s.cell s.snap.a0.toNat s.snap.a1.toNat = none →
        WroteResults s t
          ((Config.freeChip s.draws (cellKey s.snap.a0.toNat s.snap.a1.toNat)).signExtend 32) 0 ∧
        t.fault = some .unwrittenCell))

/-- 41_code_table.md R145: CT_READ_UNCHECKED. As CT_READ inside the table; outside it RESULT0 is any value, RESULT1 is 0,
the command completes OK and no other state changes; TABLE_INVALID without a table. -/
def Obligations.CtReadUncheckedReturnsTheChipOrAnyWord : Prop :=
  ∀ s : State, ∃ t, exec .ctReadUnchecked s = .next t ∧
    (s.tableValid = false → Raised s t .tableInvalid) ∧
    (s.tableValid = true → (s.ctLen.toNat + 1 < s.snap.a0.toNat ∨ s.ctPrns.toNat ≤ s.snap.a1.toNat) →
      WroteResults s t (Config.freeWord s.draws 0x00040) 0 ∧ SameFault s t) ∧
    (s.tableValid = true → s.snap.a0.toNat ≤ s.ctLen.toNat + 1 → s.snap.a1.toNat < s.ctPrns.toNat →
      (∀ b, s.cell s.snap.a0.toNat s.snap.a1.toNat = some b →
        WroteResults s t (b.signExtend 32) 0 ∧ SameFault s t) ∧
      (s.cell s.snap.a0.toNat s.snap.a1.toNat = none →
        WroteResults s t
          ((Config.freeChip s.draws (cellKey s.snap.a0.toNat s.snap.a1.toNat)).signExtend 32) 0 ∧
        t.fault = some .unwrittenCell))

/-- 41_code_table.md R146: on valid input the two reads agree, and complete OK. -/
def Obligations.TheTwoReadsAgree : Prop :=
  ∀ s : State, s.tableValid = true → s.snap.a0.toNat ≤ s.ctLen.toNat + 1 → s.snap.a1.toNat < s.ctPrns.toNat →
    ∃ t, exec .ctRead s = .next t ∧ exec .ctReadUnchecked s = .next t ∧ t.err = .ok

/-- 41_code_table.md R147: the round trip. Chips written with CT_WRITE and built with CT_BUILD are read back by CT_READ,
the guard rows included. -/
def Obligations.TableRoundTrip : Prop :=
  ∀ (s : State) (chips : List Byte) (p prns : Nat), s.cfg.wf = true →
    2 ≤ chips.length → chips.length ≤ s.cfg.lMax → p < prns → prns ≤ s.cfg.prnMax →
    let t := (loadChips p chips 0 s).runCommand .ctBuild (args2 chips.length prns)
    let read := fun r => t.runCommand .ctRead (args2 r p)
    t.err = .ok ∧
    (∀ (i : Nat) (h : i < chips.length),
      (read (i + 1)).err = .ok ∧ (read (i + 1)).result0 = chips[i].signExtend 32) ∧
    (∀ b, chips.getLast? = some b → (read 0).err = .ok ∧ (read 0).result0 = b.signExtend 32) ∧
    (∀ b, chips.head? = some b →
      (read (chips.length + 1)).err = .ok ∧ (read (chips.length + 1)).result0 = b.signExtend 32)

/-! ## The code sampler -/

/-- 42_code_sampler.md R161, R162, with the operands of 30_encoding.md R93: CODE_SAMPLE writes OUT[j] <-
sext_32(T[idx + 1][c]), idx = (pos >> 32) mod CT_LEN, for every j < count, and no other byte; a cell nothing has written
reads as a free chip and is recorded (log 2). -/
def Obligations.CodeSampleWritesTheSampledChips : Prop :=
  ∀ s : State,
    let n0 : Int := s.snap.a0.toInt
    let cnt := s.snap.a1.toNat
    let inc : Nat := s.snap.a3.toNat * 2 ^ 32 + s.snap.a2.toNat
    let ph0 : Int := (s.snap.a5 ++ s.snap.a4 : BitVec 64).toInt
    let c := s.snap.a6.toNat
    let row := fun j : Nat => (((ph0 + (n0 + (j : Int)) * (inc : Int)) / 2 ^ 32) % (s.ctLen.toNat : Int)).toNat + 1
    s.tableValid = true → inc ≠ 0 → cnt ≤ s.cfg.bufDepth → c < s.ctPrns.toNat →
    ∃ t f, exec .codeSample s = .next t ∧ WroteOuts s t cnt f ∧
      (∀ j, j < cnt →
        (∀ b, s.cell (row j) c = some b → f j = b.signExtend 32) ∧
        (s.cell (row j) c = none → f j = (Config.freeChip s.draws (cellKey (row j) c)).signExtend 32)) ∧
      ((∀ j, j < cnt → s.cell (row j) c ≠ none) → SameFault s t) ∧
      ((∃ j, j < cnt ∧ s.cell (row j) c = none) → t.fault = some .unwrittenCell)

/-- 42_code_sampler.md R162, 60_exceptions.md R212, with the operands of 30_encoding.md R93: CODE_SAMPLE raises the first
code in the order TABLE_INVALID, INVALID_PARAMETER, OUT_OF_RANGE, and writes nothing. -/
def Obligations.CodeSampleRaisesInOrder : Prop :=
  ∀ s : State,
    let cnt := s.snap.a1.toNat
    let inc : Nat := s.snap.a3.toNat * 2 ^ 32 + s.snap.a2.toNat
    let c := s.snap.a6.toNat
    ∃ t, exec .codeSample s = .next t ∧
      (s.tableValid = false → Raised s t .tableInvalid) ∧
      (s.tableValid = true → (inc = 0 ∨ s.cfg.bufDepth < cnt) → Raised s t .invalidParameter) ∧
      (s.tableValid = true → inc ≠ 0 → cnt ≤ s.cfg.bufDepth → s.ctPrns.toNat ≤ c → Raised s t .outOfRange)

/-- 42_code_sampler.md R163: the accumulator an implementation may keep gives the chip index of R162 at every sample. -/
def Obligations.CodeAccumulatorGivesTheChipIndex : Prop :=
  ∀ (x : Args) (len j : Nat), 0 < len →
    let inc : Nat := x.a3.toNat * 2 ^ 32 + x.a2.toNat
    let ph0 : Int := (x.a5 ++ x.a4 : BitVec 64).toInt
    ((codeAccAt x len j / 2 ^ 32 : Nat) : Int) =
      ((ph0 + (x.a0.toInt + (j : Int)) * (inc : Int)) / 2 ^ 32) % (len : Int)

/-- 42_code_sampler.md R164, with the operands of 30_encoding.md R93: CODE_PHASE returns the centred residual as a 64-bit
two's complement value in RESULT1:RESULT0, or raises INVALID_PARAMETER when L = 0 or inc = 0. -/
def Obligations.CodePhaseReturnsTheCentredResidual : Prop :=
  ∀ s : State,
    let len : Int := (s.snap.a1.toNat : Int)
    let inc : Nat := s.snap.a3.toNat * 2 ^ 32 + s.snap.a2.toNat
    let pos : Int := (s.snap.a5 ++ s.snap.a4 : BitVec 64).toInt + s.snap.a0.toInt * (inc : Int)
    (s.snap.a1.toNat ≠ 0 → inc ≠ 0 →
      ∃ t r0 r1, exec .codePhase s = .next t ∧ WroteResults s t r0 r1 ∧ SameFault s t ∧
        (r1 ++ r0 : BitVec 64).toInt = (pos + len * 2 ^ 31) % (len * 2 ^ 32) - len * 2 ^ 31) ∧
    (s.snap.a1.toNat = 0 ∨ inc = 0 → ∃ t, exec .codePhase s = .next t ∧ Raised s t .invalidParameter)

/-- 42_code_sampler.md R165: every CODE_PHASE result that completes OK lies in [−L/2, L/2) chips. -/
def Obligations.CodePhaseRange : Prop :=
  ∀ s t : State, exec .codePhase s = .next t → t.err = .ok →
    -((s.snap.a1.toNat : Int) * 2 ^ 31) ≤ (t.result1 ++ t.result0 : BitVec 64).toInt ∧
    (t.result1 ++ t.result0 : BitVec 64).toInt < (s.snap.a1.toNat : Int) * 2 ^ 31

/-- 42_code_sampler.md R166: samples whose positions lie a whole number of code periods apart give the same index and the
same chip, in one CODE_SAMPLE or in two on equal tables; with ph0 = 0 and inc = 2^32, sample L gives the chip of
sample 0. The chip is that of a written cell; what an unwritten one reads as is free (log 2). -/
def Obligations.SamplingIsPeriodic : Prop :=
  let inc : Args → Nat := fun x => x.a3.toNat * 2 ^ 32 + x.a2.toNat
  let ph0 := fun x : Args => (x.a5 ++ x.a4 : BitVec 64).toInt
  let pos := fun (x : Args) (n : Int) => ph0 x + n * (inc x : Int)
  let sample := fun (s : State) (j : Nat) => s.snap.a0.toInt + (j : Int)
  (∀ (x x' : Args) (n n' : Int) (len : Nat), ((len : Int) * 2 ^ 32) ∣ (pos x' n' - pos x n) →
    codeIdx (codePos x' n') len = codeIdx (codePos x n) len) ∧
  (∀ (s t s' t' : State) (j j' : Nat), exec .codeSample s = .next t → exec .codeSample s' = .next t' →
    t.err = .ok → t'.err = .ok → j < s.snap.a1.toNat → j' < s'.snap.a1.toNat →
    s'.ctLen = s.ctLen → s'.snap.a6 = s.snap.a6 →
    (∀ r, s'.cell r s.snap.a6.toNat = s.cell r s.snap.a6.toNat) →
    s.cell (((pos s.snap (sample s j) / 2 ^ 32) % (s.ctLen.toNat : Int)).toNat + 1) s.snap.a6.toNat ≠ none →
    (((s.ctLen.toNat : Int) * 2 ^ 32) ∣ (pos s'.snap (sample s' j') - pos s.snap (sample s j)) →
      Memory.wordAt t'.mem (outAddr j') = Memory.wordAt t.mem (outAddr j)) ∧
    (ph0 s.snap = 0 → inc s.snap = 2 ^ 32 → ph0 s'.snap = 0 → inc s'.snap = 2 ^ 32 →
      sample s j = 0 → sample s' j' = (s.ctLen.toNat : Int) →
      Memory.wordAt t'.mem (outAddr j') = Memory.wordAt t.mem (outAddr j)))

/-! ## The carrier -/

/-- 43_carrier.md R180: every ROM entry is the exact cosine or sine, scaled by 2^A and rounded to the nearest integer;
the end points are exact, every entry lies in [0, 2^A], and ST[k] = CT[2^Q − k]. -/
def Obligations.RomHoldsTheRoundedCosineAndSine : Prop :=
  ∀ q a : Nat,
    (∀ k : Nat, k ≤ 2 ^ q →
      (romCos q a k : Int) = round (Real.cos (k * (Real.pi / 2) / 2 ^ q) * 2 ^ a) ∧
      (romSin q a k : Int) = round (Real.sin (k * (Real.pi / 2) / 2 ^ q) * 2 ^ a) ∧
      romCos q a k ≤ 2 ^ a ∧ romSin q a k ≤ 2 ^ a ∧ romSin q a k = romCos q a (2 ^ q - k)) ∧
    romCos q a 0 = 2 ^ a ∧ romSin q a 0 = 0 ∧ romCos q a (2 ^ q) = 0 ∧ romSin q a (2 ^ q) = 2 ^ a

/-- 43_carrier.md R182, R183: the quadrant and residual make up the phase word; on a boundary q·π/2, q ≠ 0, the endpoint
of quadrant q − 1 serves; otherwise the index is nearest to the residual, ties to the larger, at most 2^Q. -/
def Obligations.FoldFindsTheNearestIndex : Prop :=
  ∀ (q : Nat) (phi : Word), q ≤ 16 →
    let f := foldPhase q phi
    let r := phi.toNat % 2 ^ 30
    phi.toNat = f.quad.val * 2 ^ 30 + r ∧
    (r = 0 → f.quad.val ≠ 0 → f.quadEff.val + 1 = f.quad.val ∧ f.index = 2 ^ q) ∧
    (¬(r = 0 ∧ f.quad.val ≠ 0) → f.quadEff = f.quad ∧ f.index ≤ 2 ^ q ∧
      2 * r < 2 * (f.index * 2 ^ (30 - q)) + 2 ^ (30 - q) ∧ 2 * (f.index * 2 ^ (30 - q)) ≤ 2 * r + 2 ^ (30 - q))

/-- 43_carrier.md R184, R185: I and Q are the table entries at the fold's index, swapped and negated by its quadrant, and
the two halves of the output word; they lie in [−2^A, 2^A]; the boundary rule never changes the word. -/
def Obligations.CarrierRangeAndBoundary : Prop :=
  ∀ c : Config, c.wf = true →
    (∀ phi : Word,
      let ct : Int := romCos c.q c.a (foldPhase c.q phi).index
      let st : Int := romSin c.q c.a (foldPhase c.q phi).index
      ((foldPhase c.q phi).quadEff = 0 → carrierPair c phi = (ct, st)) ∧
      ((foldPhase c.q phi).quadEff = 1 → carrierPair c phi = (-st, ct)) ∧
      ((foldPhase c.q phi).quadEff = 2 → carrierPair c phi = (-ct, -st)) ∧
      ((foldPhase c.q phi).quadEff = 3 → carrierPair c phi = (st, -ct)) ∧
      -2 ^ c.a ≤ (carrierPair c phi).1 ∧ (carrierPair c phi).1 ≤ 2 ^ c.a ∧
      -2 ^ c.a ≤ (carrierPair c phi).2 ∧ (carrierPair c phi).2 ≤ 2 ^ c.a ∧
      ((carrier c phi).extractLsb' 0 16).toInt = (carrierPair c phi).1 ∧
      ((carrier c phi).extractLsb' 16 16).toInt = (carrierPair c phi).2) ∧
    foldTransform c 0 (2 ^ c.q) = foldTransform c 1 0 ∧ foldTransform c 1 0 = (0, 2 ^ c.a) ∧
    foldTransform c 1 (2 ^ c.q) = foldTransform c 2 0 ∧ foldTransform c 2 0 = (-2 ^ c.a, 0) ∧
    foldTransform c 2 (2 ^ c.q) = foldTransform c 3 0 ∧ foldTransform c 3 0 = (0, -2 ^ c.a)

/-- 43_carrier.md R186: the phase accumulator an implementation may keep gives φ(j) at every sample. -/
def Obligations.CarrierAccumulatorGivesThePhase : Prop :=
  ∀ (x : Args) (j : Nat),
    carAccAt x j = BitVec.ofInt 32 ((x.a4.toNat : Int) + (x.a0.toInt + (j : Int)) * (x.a2.toNat : Int))

/-- 43_carrier.md R186, R187: CAR_GEN writes OUT[j] <- carrier(φ(j)) for j < count and no other byte, or raises
INVALID_PARAMETER when the count is over BUF_DEPTH. -/
def Obligations.CarGenWritesTheCarrier : Prop :=
  ∀ s : State,
    (s.snap.a1.toNat ≤ s.cfg.bufDepth →
      ∃ t, exec .carGen s = .next t ∧ SameFault s t ∧
        WroteOuts s t s.snap.a1.toNat (fun j => carrier s.cfg (BitVec.ofInt 32
          ((s.snap.a4.toNat : Int) + (s.snap.a0.toInt + (j : Int)) * (s.snap.a2.toNat : Int))))) ∧
    (s.cfg.bufDepth < s.snap.a1.toNat → ∃ t, exec .carGen s = .next t ∧ Raised s t .invalidParameter)

/-- 43_carrier.md R186, R188: CAR_PHASES writes OUT[j] <- φ(j) for j < count and no other byte, or raises
INVALID_PARAMETER when the count is over BUF_DEPTH. -/
def Obligations.CarPhasesWritesThePhases : Prop :=
  ∀ s : State,
    (s.snap.a1.toNat ≤ s.cfg.bufDepth →
      ∃ t, exec .carPhases s = .next t ∧ SameFault s t ∧
        WroteOuts s t s.snap.a1.toNat (fun j => BitVec.ofInt 32
          ((s.snap.a4.toNat : Int) + (s.snap.a0.toInt + (j : Int)) * (s.snap.a2.toNat : Int)))) ∧
    (s.cfg.bufDepth < s.snap.a1.toNat → ∃ t, exec .carPhases s = .next t ∧ Raised s t .invalidParameter)

/-- 43_carrier.md R189, 70_reset_and_hazards.md R252: CAR_LUT writes OUT[j] <- carrier(IN[j]) for j < count and no other
byte; an unwritten IN word is any word (log 3); OUT[j] is any value where the host wrote IN[j] while it ran (log 6); it
raises INVALID_PARAMETER when the count is over BUF_DEPTH. -/
def Obligations.CarLutWritesTheLookups : Prop :=
  ∀ s : State,
    (s.snap.a1.toNat ≤ s.cfg.bufDepth →
      ∃ t f, exec .carLut s = .next t ∧ SameFault s t ∧ WroteOuts s t s.snap.a1.toNat f ∧
        ∀ j, j < s.snap.a1.toNat →
          (j ∈ s.raced → f j = Config.freeWord s.draws (0x20000 + 4 * j)) ∧
          (j ∉ s.raced → ∀ w, Memory.wordAt s.mem (0x10000 + 4 * j) = some w → f j = carrier s.cfg w) ∧
          (j ∉ s.raced → Memory.wordAt s.mem (0x10000 + 4 * j) = none →
            f j = carrier s.cfg (Config.freeWord s.draws (0x10000 + 4 * j)))) ∧
    (s.cfg.bufDepth < s.snap.a1.toNat → ∃ t, exec .carLut s = .next t ∧ Raised s t .invalidParameter)

/-- 43_carrier.md R191: CAR_EVAL returns carrier(φ) and the diagnostic word: k in [16:0], q_eff in [21:20], q in
[23:22], the rest 0. -/
def Obligations.CarEvalReturnsTheFold : Prop :=
  ∀ s : State, s.cfg.wf = true →
    ∃ t d, exec .carEval s = .next t ∧ SameFault s t ∧ WroteResults s t (carrier s.cfg s.snap.a4) d ∧
      d.toNat = (foldPhase s.cfg.q s.snap.a4).index + 2 ^ 20 * (foldPhase s.cfg.q s.snap.a4).quadEff.val +
        2 ^ 22 * (foldPhase s.cfg.q s.snap.a4).quad.val

/-- 43_carrier.md R190: CAR_ROM_READ returns the ROM entry, cosine in [15:0] and sine in [31:16], or raises OUT_OF_RANGE
when k > 2^Q. -/
def Obligations.CarRomReadReturnsTheEntry : Prop :=
  ∀ s : State, s.cfg.wf = true →
    (s.snap.a0.toNat ≤ 2 ^ s.cfg.q →
      ∃ t r, exec .carRomRead s = .next t ∧ SameFault s t ∧ WroteResults s t r 0 ∧
        r.toNat = romCos s.cfg.q s.cfg.a s.snap.a0.toNat + 2 ^ 16 * romSin s.cfg.q s.cfg.a s.snap.a0.toNat) ∧
    (2 ^ s.cfg.q < s.snap.a0.toNat → ∃ t, exec .carRomRead s = .next t ∧ Raised s t .outOfRange)

/-- 43_carrier.md R188 (corner cases): OUT of CAR_PHASES copied into IN and looked up by CAR_LUT gives the OUT words of
CAR_GEN with the same operands. -/
def Obligations.SplitPipelineEqualsFused : Prop :=
  ∀ s p g u l : State, exec .carPhases s = .next p → exec .carGen s = .next g → p.err = .ok →
    u.cfg = s.cfg → u.snap.a1 = s.snap.a1 → u.raced = [] →
    (∀ j, j < s.snap.a1.toNat → Memory.wordAt u.mem (inAddr j) = Memory.wordAt p.mem (outAddr j)) →
    exec .carLut u = .next l →
    g.err = .ok ∧ l.err = .ok ∧
    ∀ j, j < s.snap.a1.toNat → Memory.wordAt l.mem (outAddr j) = Memory.wordAt g.mem (outAddr j)

/-- 43_carrier.md R192: the error bound of the carrier against exp(iθ), and that the bound falls strictly as Q or A
grows. -/
def Obligations.CarrierErrorBound : Prop :=
  let eps : Nat → Nat → ℝ := fun q a => Real.pi / 2 ^ (q + 2) + (2 : ℝ) ^ (-(a : ℝ) - 1 / 2)
  (∀ (c : Config) (phi : Word), c.wf = true →
    ‖((carrierPair c phi).1 + (carrierPair c phi).2 * Complex.I) / (2 ^ c.a : ℂ) -
      Complex.exp ((2 * Real.pi * phi.toNat / 2 ^ 32 : ℝ) * Complex.I)‖ ≤ eps c.q c.a) ∧
  (∀ q a : Nat, eps (q + 1) a < eps q a ∧ eps q (a + 1) < eps q a)

/-- 43_carrier.md R193: half-turn symmetry always; the two mirror symmetries except where the residual lies halfway
between two table angles, where the mirrored phase takes index 2^Q − k + 1. -/
def Obligations.CarrierSymmetries : Prop :=
  ∀ (c : Config) (phi : Word), c.wf = true →
    carrierPair c (phi + 0x80000000#32) = (-(carrierPair c phi).1, -(carrierPair c phi).2) ∧
    ((phi.toNat % 2 ^ 30) % 2 ^ (30 - c.q) ≠ 2 ^ (30 - c.q - 1) →
      carrierPair c (0x80000000#32 - phi) = (-(carrierPair c phi).1, (carrierPair c phi).2) ∧
      carrierPair c (0#32 - phi) = ((carrierPair c phi).1, -(carrierPair c phi).2)) ∧
    ((phi.toNat % 2 ^ 30) % 2 ^ (30 - c.q) = 2 ^ (30 - c.q - 1) →
      (foldPhase c.q (0x80000000#32 - phi)).index = 2 ^ c.q - (foldPhase c.q phi).index + 1 ∧
      (foldPhase c.q (0#32 - phi)).index = 2 ^ c.q - (foldPhase c.q phi).index + 1)

/-! ## The whole machine -/

/-- Every step keeps the model's invariant: configuration in range, canonical memories inside their windows, words
whole, a legal table shape, and the STATUS rules of 40_engine.md R121, R122, R124 (its clauses on `cmd`, `snap` and
`raced` are the model's, log 6 and 9). -/
def Obligations.EveryStepKeepsTheInvariant : Prop :=
  ∀ s t : State, s.Inv → step s = .next t → t.Inv

/-- The invariant holds after reset. -/
def Obligations.ResetSatisfiesTheInvariant : Prop := State.reset.Inv

/-- 41_code_table.md R140, 10_state.md R34: while the table is reachable its guard rows are copies, and every step keeps
this. -/
def Obligations.EveryStepKeepsTheGuardRows : Prop :=
  ∀ s t : State, s.Inv → s.GuardRows → step s = .next t → t.GuardRows

/-- 10_state.md R34: TABLE_VALID is set only at the completion of a successful CT_BUILD and cleared at the
acceptance of every CT_WRITE and CT_BUILD and by reset, and by nothing else; while it is 0 every command that reads the
table raises TABLE_INVALID. -/
def Obligations.OnlyBuildMakesTheTableReachable : Prop :=
  (∀ (s t : State) (i : Instr), s.tableValid = false → (i = .ctRead ∨ i = .ctReadUnchecked ∨ i = .codeSample) →
    exec i s = .next t → Raised s t .tableInvalid) ∧
  ∀ s t : State, step s = .next t →
    (∀ rest, s.pending = .reset :: rest → t.tableValid = false) ∧
    (∀ addr w rest, s.pending = .write addr w :: rest → addr.toNat / 4 = 0x00018 / 4 → s.busy = false →
      (decode w = .ok .ctWrite ∨ decode w = .ok .ctBuild) → t.tableValid = false) ∧
    (s.tableValid = false → t.tableValid = true →
      s.busy = true ∧ decode s.cmd = .ok .ctBuild ∧ t.err = .ok ∧
      (s.pending = [] ∨ ∃ rest, s.pending = .engine :: rest)) ∧
    (s.tableValid = true → t.tableValid = false →
      (∃ rest, s.pending = .reset :: rest) ∨
      (∃ addr w rest, s.pending = .write addr w :: rest ∧ addr.toNat / 4 = 0x00018 / 4 ∧ s.busy = false ∧
        (decode w = .ok .ctWrite ∨ decode w = .ok .ctBuild)))

/-- 10_state.md R22, R43: ARG0 to ARG7 change only by a host write to them or by reset (the engine never writes them), and
the configuration never changes. -/
def Obligations.OnlyTheHostChangesTheArguments : Prop :=
  ∀ s t : State, step s = .next t →
    t.cfg = s.cfg ∧
    (t.args ≠ s.args → (∃ rest, s.pending = .reset :: rest) ∨
      ∃ addr w rest, s.pending = .write addr w :: rest ∧ 0x00020 / 4 ≤ addr.toNat / 4 ∧ addr.toNat / 4 ≤ 0x0003C / 4)

/-- 10_state.md R41, 60_exceptions.md R216: each STATUS flag and IRQ_EN changes only at its own events: BUSY and ERR at an
acceptance, a completion and reset; DONE at these and by a 1 written to STATUS bit 1; CMD_OVR by a dropped CMD write, by
a 1 written to STATUS bit 3 and at reset; IRQ_EN by a write to CTRL and at reset. -/
def Obligations.StatusChangesOnlyAtItsEvents : Prop :=
  ∀ s t : State, step s = .next t →
    let reset := ∃ rest, s.pending = .reset :: rest
    let issued := ∃ addr w rest, s.pending = .write addr w :: rest ∧ addr.toNat / 4 = 0x00018 / 4
    let completed := s.busy = true ∧ (s.pending = [] ∨ ∃ rest, s.pending = .engine :: rest)
    (t.busy ≠ s.busy → reset ∨ (issued ∧ s.busy = false) ∨ completed) ∧
    (t.err ≠ s.err → reset ∨ (issued ∧ s.busy = false) ∨ completed) ∧
    (t.done ≠ s.done → reset ∨ (issued ∧ s.busy = false) ∨ completed ∨
      ∃ addr w rest, s.pending = .write addr w :: rest ∧ addr.toNat / 4 = 0x00010 / 4 ∧ w[1] = true) ∧
    (t.cmdOvr ≠ s.cmdOvr → reset ∨ (issued ∧ s.busy = true) ∨
      ∃ addr w rest, s.pending = .write addr w :: rest ∧ addr.toNat / 4 = 0x00010 / 4 ∧ w[3] = true) ∧
    (t.irqEn ≠ s.irqEn → reset ∨
      ∃ addr w rest, s.pending = .write addr w :: rest ∧ addr.toNat / 4 = 0x00014 / 4)

/-- 10_state.md R23, R32, R33: RESULT0 and RESULT1 change only at the OK completion of the five commands that write them,
CT_LEN and CT_PRNS only at that of CT_BUILD, and all four at reset. -/
def Obligations.OnlyTheirCommandsChangeResultsAndShape : Prop :=
  ∀ s t : State, step s = .next t →
    let reset := ∃ rest, s.pending = .reset :: rest
    let completedOk := s.busy = true ∧ (s.pending = [] ∨ ∃ rest, s.pending = .engine :: rest) ∧ t.err = .ok
    (t.result0 ≠ s.result0 ∨ t.result1 ≠ s.result1 → reset ∨
      (completedOk ∧
        (decode s.cmd = .ok .ctRead ∨ decode s.cmd = .ok .ctReadUnchecked ∨ decode s.cmd = .ok .codePhase ∨
          decode s.cmd = .ok .carEval ∨ decode s.cmd = .ok .carRomRead))) ∧
    (t.ctLen ≠ s.ctLen ∨ t.ctPrns ≠ s.ctPrns → reset ∨ (completedOk ∧ decode s.cmd = .ok .ctBuild))

/-- 10_state.md R35, R37, R38: a code-table cell changes only at the OK completion of CT_WRITE and CT_BUILD, an OUT byte
below the count only at that of the four commands that write OUT, an IN byte only by a host write to IN, and all of them
at reset. -/
def Obligations.OnlyTheirWritersChangeTheStores : Prop :=
  ∀ s t : State, step s = .next t →
    let reset := ∃ rest, s.pending = .reset :: rest
    let completedOk := s.busy = true ∧ (s.pending = [] ∨ ∃ rest, s.pending = .engine :: rest) ∧ t.err = .ok
    (∀ k, Memory.byteAt t.table k ≠ Memory.byteAt s.table k → reset ∨
      (completedOk ∧ (decode s.cmd = .ok .ctWrite ∨ decode s.cmd = .ok .ctBuild))) ∧
    (∀ a, Memory.byteAt t.mem a ≠ Memory.byteAt s.mem a → reset ∨
      (completedOk ∧ 0x20000 ≤ a ∧ a < 0x20000 + 4 * s.snap.a1.toNat ∧
        (decode s.cmd = .ok .codeSample ∨ decode s.cmd = .ok .carGen ∨ decode s.cmd = .ok .carPhases ∨
          decode s.cmd = .ok .carLut)) ∨
      (∃ addr w rest, s.pending = .write addr w :: rest ∧ a / 4 = addr.toNat / 4 ∧
        0x10000 ≤ a ∧ a < 0x10000 + 4 * s.cfg.bufDepth ∧ a < 0x20000))

/-- 60_exceptions.md R211: a raised command takes effect only in its completion writes. -/
def Obligations.ARaiseWritesOnlyStatus : Prop :=
  ∀ (i : Instr) (s t : State), exec i s = .next t → t.err ≠ .ok → Raised s t t.err

/-- 10_state.md R22, 20_memory.md R72: the live argument registers do not reach a running command. -/
def Obligations.LiveArgumentsDoNotReachTheCommand : Prop :=
  ∀ (i : Instr) (s t : State) (x : Args), exec i s = .next t →
    exec i { s with args := x } = .next { t with args := x }

/-- 40_engine.md R130: a command's status and what it writes depend on its snapshot, and on the code table for the
commands that read it, and on IN for CAR_LUT, and on nothing else (where no unwritten cell or word is read and
CT_READ_UNCHECKED is in range). -/
def Obligations.CommandsAreRestartable : Prop :=
  ∀ (i : Instr) (s s' t t' : State), exec i s = .next t → exec i s' = .next t' →
    let pos := fun n : Int => (s.snap.a5 ++ s.snap.a4 : BitVec 64).toInt +
      n * ((s.snap.a3.toNat * 2 ^ 32 + s.snap.a2.toNat : Nat) : Int)
    let row := fun j : Nat => ((pos (s.snap.a0.toInt + (j : Int)) / 2 ^ 32) % (s.ctLen.toNat : Int)).toNat + 1
    s.cfg = s'.cfg → s.snap = s'.snap →
    ((i = .codeSample ∨ i = .ctRead ∨ i = .ctReadUnchecked) →
      s.tableValid = s'.tableValid ∧ s.ctLen = s'.ctLen ∧ s.ctPrns = s'.ctPrns ∧ SameCells s s' ∧
      (i = .codeSample → ∀ j, j < s.snap.a1.toNat → s.cell (row j) s.snap.a6.toNat ≠ none) ∧
      (i ≠ .codeSample → s.snap.a0.toNat ≤ s.ctLen.toNat + 1 ∧ s.snap.a1.toNat < s.ctPrns.toNat ∧
        s.cell s.snap.a0.toNat s.snap.a1.toNat ≠ none)) →
    (i = .carLut → s.raced = [] ∧ s'.raced = [] ∧
      ∀ j, j < s.snap.a1.toNat → Memory.wordAt s.mem (inAddr j) = Memory.wordAt s'.mem (inAddr j) ∧
        Memory.wordAt s.mem (inAddr j) ≠ none) →
    t.err = t'.err ∧
    (t.err = .ok →
      (writesResult i = true → t.result0 = t'.result0 ∧ t.result1 = t'.result1) ∧
      (writesOut i = true → ∀ j, j < s.snap.a1.toNat →
        Memory.wordAt t.mem (outAddr j) = Memory.wordAt t'.mem (outAddr j)))

/-- 93_implementation_defined.md I3: a fault is recorded only at the completion of CT_READ or CT_READ_UNCHECKED whose own
cell, or of CODE_SAMPLE one of whose sampled cells, is a cell of the built table that nothing has written. -/
def Obligations.OnlyUnwrittenCellsAreRecorded : Prop :=
  ∀ s t : State, s.Inv → step s = .next t → s.fault = none → t.fault ≠ none →
    let pos := fun n : Int => (s.snap.a5 ++ s.snap.a4 : BitVec 64).toInt +
      n * ((s.snap.a3.toNat * 2 ^ 32 + s.snap.a2.toNat : Nat) : Int)
    let row := fun j : Nat => ((pos (s.snap.a0.toInt + (j : Int)) / 2 ^ 32) % (s.ctLen.toNat : Int)).toNat + 1
    s.busy = true ∧ (s.pending = [] ∨ ∃ rest, s.pending = .engine :: rest) ∧ t.err = .ok ∧ s.tableValid = true ∧
    (((decode s.cmd = .ok .ctRead ∨ decode s.cmd = .ok .ctReadUnchecked) ∧
        s.snap.a0.toNat ≤ s.ctLen.toNat + 1 ∧ s.snap.a1.toNat < s.ctPrns.toNat ∧
        s.cell s.snap.a0.toNat s.snap.a1.toNat = none) ∨
      (decode s.cmd = .ok .codeSample ∧ s.snap.a6.toNat < s.ctPrns.toNat ∧
        ∃ j, j < s.snap.a1.toNat ∧ row j ≤ s.ctLen.toNat ∧ s.cell (row j) s.snap.a6.toNat = none))
end

