-- ==== Sys2Proof/Laws/Memory.lean ====
section
/-! SUPPORT. What each memory operation does to a read, and that each keeps the canonical form. -/

namespace Sys2Proof.Machine

@[simp] theorem Memory.byteAt_nil (a : Nat) : Memory.byteAt [] a = none := rfl

theorem Memory.byteAt_cons (k : Nat) (v : Byte) (m : Memory) (a : Nat) :
    Memory.byteAt ((k, v) :: m) a = if k = a then some v else Memory.byteAt m a := rfl

/-- A byte written is read back, and every other byte reads as before. -/
theorem Memory.byteAt_setByte (m : Memory) (a : Nat) (b : Byte) (x : Nat) :
    Memory.byteAt (Memory.setByte m a b) x = if x = a then some b else Memory.byteAt m x := by
  induction m with
  | nil =>
    simp only [Memory.setByte, Memory.byteAt_cons, Memory.byteAt_nil, eq_comm]
  | cons y m ih =>
    obtain ⟨k, v⟩ := y
    simp only [Memory.setByte]
    split
    · simp only [Memory.byteAt_cons, eq_comm (a := a)]
    · split
      · rename_i h; subst h
        simp only [Memory.byteAt_cons, eq_comm (a := a)]
        split <;> rfl
      · rename_i h1 h2
        simp only [Memory.byteAt_cons, ih]
        by_cases hk : k = x
        · subst hk; simp [Ne.symm h2]
        · simp [hk]

/-- An erased byte is unwritten, and every other byte reads as before. -/
theorem Memory.byteAt_erase (m : Memory) (a x : Nat) :
    Memory.byteAt (Memory.erase m a) x = if x = a then none else Memory.byteAt m x := by
  induction m with
  | nil => simp [Memory.erase]
  | cons y m ih =>
    obtain ⟨k, v⟩ := y
    simp only [Memory.erase]
    split
    · rename_i h; subst h
      rw [ih, Memory.byteAt_cons]
      by_cases hx : x = k
      · simp [hx]
      · simp [hx, Ne.symm hx]
    · rename_i h
      rw [Memory.byteAt_cons, ih, Memory.byteAt_cons]
      by_cases hx : x = a
      · subst hx; simp [h]
      · simp [hx]

/-- A cell holds what was put into it, and every other cell reads as before. -/
theorem Memory.byteAt_putCell (m : Memory) (a : Nat) (v : Option Byte) (x : Nat) :
    Memory.byteAt (Memory.putCell m a v) x = if x = a then v else Memory.byteAt m x := by
  cases v with
  | none => exact Memory.byteAt_erase m a x
  | some b => exact Memory.byteAt_setByte m a b x

/-- A word written changes its four bytes only. -/
theorem Memory.byteAt_putWord (m : Memory) (a : Nat) (w : Word) (x : Nat) :
    Memory.byteAt (Memory.putWord m a w) x =
      if x = a + 3 then some (byteOf w 3) else if x = a + 2 then some (byteOf w 2)
      else if x = a + 1 then some (byteOf w 1) else if x = a then some (byteOf w 0) else Memory.byteAt m x := by
  simp only [Memory.putWord, Memory.byteAt_setByte]

theorem Memory.byteAt_putWord_other (m : Memory) (a : Nat) (w : Word) (x : Nat) (h : x < a ∨ a + 4 ≤ x) :
    Memory.byteAt (Memory.putWord m a w) x = Memory.byteAt m x := by
  rw [Memory.byteAt_putWord]
  have h0 : x ≠ a := by omega
  have h1 : x ≠ a + 1 := by omega
  have h2 : x ≠ a + 2 := by omega
  have h3 : x ≠ a + 3 := by omega
  simp [h0, h1, h2, h3]

/-- The four bytes of a word, put together, are the word (20_memory.md R63). -/
theorem bytes_join (w : Word) : byteOf w 3 ++ byteOf w 2 ++ byteOf w 1 ++ byteOf w 0 = w := by
  apply BitVec.eq_of_getLsbD_eq
  intro i hi
  simp only [byteOf, BitVec.getLsbD_append, BitVec.getLsbD_extractLsb']
  split
  · simp [*]
  · split
    · simp only [show i - 8 < 8 from by omega, decide_true, Bool.true_and]; congr 1; omega
    · split
      · simp only [show i - 8 - 8 < 8 from by omega, decide_true, Bool.true_and]; congr 1; omega
      · simp only [show i - 8 - 8 - 8 < 8 from by omega, decide_true, Bool.true_and]; congr 1; omega

/-- A word written is read back (20_memory.md R70). -/
theorem Memory.wordAt_putWord_same (m : Memory) (a : Nat) (w : Word) :
    Memory.wordAt (Memory.putWord m a w) a = some w := by
  simp only [Memory.wordAt, Memory.byteAt_putWord]
  simp [bytes_join]

/-- The word at `a` depends on its four bytes only. -/
theorem Memory.wordAt_congr {m m' : Memory} {a : Nat}
    (h : ∀ x, a ≤ x → x < a + 4 → Memory.byteAt m' x = Memory.byteAt m x) :
    Memory.wordAt m' a = Memory.wordAt m a := by
  simp only [Memory.wordAt, h a (by omega) (by omega), h (a + 1) (by omega) (by omega),
    h (a + 2) (by omega) (by omega), h (a + 3) (by omega) (by omega)]

theorem Memory.wordAt_putWord_other (m : Memory) (a : Nat) (w : Word) (x : Nat) (h : x + 4 ≤ a ∨ a + 4 ≤ x) :
    Memory.wordAt (Memory.putWord m a w) x = Memory.wordAt m x :=
  Memory.wordAt_congr fun y h1 h2 => Memory.byteAt_putWord_other m a w y (by omega)

/-- Writing OUT words leaves every other byte. -/
theorem byteAt_writeOuts_other (n : Nat) (f : Nat → Word) (m : Memory) (a : Nat)
    (h : a < outAddr 0 ∨ outAddr n ≤ a) : Memory.byteAt (writeOuts n f m) a = Memory.byteAt m a := by
  induction n with
  | zero => rfl
  | succ n ih =>
    simp only [writeOuts]
    simp only [outAddr] at h ih ⊢
    rw [Memory.byteAt_putWord_other _ _ _ _ (by omega), ih (by omega)]

/-- Every OUT word below the count reads the word written to it (10_state.md R38). -/
theorem wordAt_writeOuts (n : Nat) (f : Nat → Word) (m : Memory) (j : Nat) (h : j < n) :
    Memory.wordAt (writeOuts n f m) (outAddr j) = some (f j) := by
  induction n with
  | zero => omega
  | succ n ih =>
    simp only [writeOuts]
    by_cases hj : j = n
    · subst hj; exact Memory.wordAt_putWord_same _ _ _
    · rw [Memory.wordAt_putWord_other _ _ _ _ (by simp only [outAddr]; omega)]
      exact ih (by omega)

/-! ## Keys -/

theorem Memory.mem_setByte {m : Memory} {a : Nat} {b : Byte} {x : Host.Cell}
    (h : x ∈ Memory.setByte m a b) : x.1 = a ∨ x ∈ m := by
  induction m with
  | nil =>
    simp only [Memory.setByte, List.mem_singleton] at h
    exact .inl (by rw [h])
  | cons y m ih =>
    obtain ⟨k, v⟩ := y
    simp only [Memory.setByte] at h
    split at h
    · rcases List.mem_cons.mp h with h | h
      · exact .inl (by rw [h])
      · exact .inr h
    · split at h
      · rcases List.mem_cons.mp h with h | h
        · exact .inl (by rw [h])
        · exact .inr (List.mem_cons_of_mem _ h)
      · rcases List.mem_cons.mp h with h | h
        · exact .inr (h ▸ List.mem_cons_self)
        · exact (ih h).imp id (List.mem_cons_of_mem _)

theorem Memory.mem_erase {m : Memory} {a : Nat} {x : Host.Cell}
    (h : x ∈ Memory.erase m a) : x ∈ m ∧ x.1 ≠ a := by
  induction m with
  | nil => simp [Memory.erase] at h
  | cons y m ih =>
    obtain ⟨k, v⟩ := y
    simp only [Memory.erase] at h
    split at h
    · exact ⟨List.mem_cons_of_mem _ (ih h).1, (ih h).2⟩
    · rcases List.mem_cons.mp h with h | h
      · subst h; exact ⟨List.mem_cons_self, by assumption⟩
      · exact ⟨List.mem_cons_of_mem _ (ih h).1, (ih h).2⟩

theorem Memory.mem_putCell {m : Memory} {a : Nat} {v : Option Byte} {x : Host.Cell}
    (h : x ∈ Memory.putCell m a v) : x.1 = a ∨ x ∈ m := by
  cases v with
  | none => exact .inr (Memory.mem_erase h).1
  | some b => exact Memory.mem_setByte h

/-! ## Every memory operation keeps the canonical form -/

theorem Memory.setByte_wf {m : Memory} (h : Memory.wf m) (a : Nat) (b : Byte) :
    Memory.wf (Memory.setByte m a b) := by
  induction m with
  | nil => simp [Memory.setByte, Memory.wf]
  | cons y m ih =>
    obtain ⟨k, v⟩ := y
    simp only [Memory.wf, List.pairwise_cons] at h
    simp only [Memory.setByte]
    split
    · simp only [Memory.wf, List.pairwise_cons]
      refine ⟨fun x hx => ?_, h.1, h.2⟩
      rcases List.mem_cons.mp hx with hx | hx
      · subst hx; assumption
      · exact Nat.lt_trans (by assumption) (h.1 x hx)
    · split
      · rename_i hk; subst hk
        simp only [Memory.wf, List.pairwise_cons]
        exact h
      · simp only [Memory.wf, List.pairwise_cons]
        refine ⟨fun x hx => ?_, ih h.2⟩
        rcases Memory.mem_setByte hx with hx | hx
        · rw [hx]; show k < a; omega
        · exact h.1 x hx

theorem Memory.erase_wf {m : Memory} (h : Memory.wf m) (a : Nat) : Memory.wf (Memory.erase m a) := by
  induction m with
  | nil => simp [Memory.erase, Memory.wf]
  | cons y m ih =>
    obtain ⟨k, v⟩ := y
    simp only [Memory.wf, List.pairwise_cons] at h
    simp only [Memory.erase]
    split
    · exact ih h.2
    · simp only [Memory.wf, List.pairwise_cons]
      exact ⟨fun x hx => h.1 x (Memory.mem_erase hx).1, ih h.2⟩

theorem Memory.putCell_wf {m : Memory} (h : Memory.wf m) (a : Nat) (v : Option Byte) :
    Memory.wf (Memory.putCell m a v) := by
  cases v with
  | none => exact Memory.erase_wf h a
  | some b => exact Memory.setByte_wf h a b

theorem Memory.putWord_wf {m : Memory} (h : Memory.wf m) (a : Nat) (w : Word) :
    Memory.wf (Memory.putWord m a w) :=
  Memory.setByte_wf (Memory.setByte_wf (Memory.setByte_wf (Memory.setByte_wf h _ _) _ _) _ _) _ _

theorem writeOuts_wf (n : Nat) (f : Nat → Word) {m : Memory} (h : Memory.wf m) : Memory.wf (writeOuts n f m) := by
  induction n with
  | zero => exact h
  | succ n ih => exact Memory.putWord_wf ih _ _

theorem copyCell_wf {m : Memory} (h : Memory.wf m) (r r' c : Nat) : Memory.wf (copyCell m r r' c) :=
  Memory.putCell_wf h _ _

theorem fillGuards_wf (len n : Nat) {m : Memory} (h : Memory.wf m) : Memory.wf (fillGuards len n m) := by
  induction n with
  | zero => exact h
  | succ n ih => exact copyCell_wf (copyCell_wf ih _ _ _) _ _ _

/-! ## Guard rows -/

theorem byteAt_copyCell (m : Memory) (r r' c k : Nat) :
    Memory.byteAt (copyCell m r r' c) k =
      if k = cellKey r' c then Memory.byteAt m (cellKey r c) else Memory.byteAt m k :=
  Memory.byteAt_putCell _ _ _ _

/-- Cell numbers tell rows and columns apart while columns stay below 65536 (00_scope.md R11). -/
theorem cellKey_inj {r c r' c' : Nat} (hc : c < 65536) (hc' : c' < 65536) :
    cellKey r c = cellKey r' c' ↔ r = r' ∧ c = c' := by
  simp only [cellKey]; omega

/-- Filling the guard rows changes rows 0 and `len + 1` of the columns below `n` only (41_code_table.md R143). -/
theorem byteAt_fillGuards_other (len n : Nat) (m : Memory) (k : Nat)
    (h : ∀ c, c < n → k ≠ cellKey 0 c ∧ k ≠ cellKey (len + 1) c) :
    Memory.byteAt (fillGuards len n m) k = Memory.byteAt m k := by
  induction n with
  | zero => rfl
  | succ n ih =>
    have hn := h n (by omega)
    simp only [fillGuards, byteAt_copyCell, if_neg hn.1, if_neg hn.2]
    exact ih fun c hc => h c (by omega)

/-- The guard rows hold copies of rows `len` and 1 (41_code_table.md R143). -/
theorem byteAt_fillGuards (len n : Nat) (m : Memory) (hlen : 2 ≤ len) (hn : n ≤ 65536) (c : Nat) (hc : c < n) :
    Memory.byteAt (fillGuards len n m) (cellKey 0 c) = Memory.byteAt m (cellKey len c) ∧
    Memory.byteAt (fillGuards len n m) (cellKey (len + 1) c) = Memory.byteAt m (cellKey 1 c) := by
  induction n with
  | zero => omega
  | succ n ih =>
    by_cases h : c = n
    · subst h
      have e1 : cellKey 0 c ≠ cellKey (len + 1) c := by simp only [cellKey]; omega
      have e2 : cellKey 1 c ≠ cellKey 0 c := by simp only [cellKey]; omega
      have o1 : ∀ r, 1 ≤ r → r ≤ len → Memory.byteAt (fillGuards len c m) (cellKey r c) = Memory.byteAt m (cellKey r c) :=
        fun r h1 h2 => byteAt_fillGuards_other _ _ _ _ fun d hd => by simp only [cellKey]; omega
      refine ⟨?_, ?_⟩
      · simp only [fillGuards, byteAt_copyCell, if_neg e1, if_pos trivial]
        exact o1 len (by omega) (by omega)
      · simp only [fillGuards, byteAt_copyCell, if_pos trivial, if_neg e2]
        exact o1 1 (by omega) (by omega)
    · obtain ⟨i1, i2⟩ := ih (by omega) (by omega)
      have n1 : cellKey 0 c ≠ cellKey 0 n := by simp only [cellKey]; omega
      have n2 : cellKey 0 c ≠ cellKey (len + 1) n := by simp only [cellKey]; omega
      have n3 : cellKey (len + 1) c ≠ cellKey 0 n := by simp only [cellKey]; omega
      have n4 : cellKey (len + 1) c ≠ cellKey (len + 1) n := by simp only [cellKey]; omega
      simp only [fillGuards, byteAt_copyCell, if_neg n1, if_neg n2, if_neg n3, if_neg n4]
      exact ⟨i1, i2⟩

theorem mem_fillGuards (len n : Nat) (m : Memory) {x : Host.Cell} (h : x ∈ fillGuards len n m) :
    (∃ c, c < n ∧ (x.1 = cellKey 0 c ∨ x.1 = cellKey (len + 1) c)) ∨ x ∈ m := by
  induction n with
  | zero => exact .inr h
  | succ n ih =>
    simp only [fillGuards, copyCell] at h
    rcases Memory.mem_putCell h with h | h
    · exact .inl ⟨n, by omega, .inr h⟩
    · rcases Memory.mem_putCell h with h | h
      · exact .inl ⟨n, by omega, .inl h⟩
      · rcases ih h with ⟨c, hc, hx⟩ | h
        · exact .inl ⟨c, by omega, hx⟩
        · exact .inr h

/-- A word written adds no byte but its own four. -/
theorem mem_putWord {m : Memory} {a : Nat} {w : Word} {x : Host.Cell} (h : x ∈ Memory.putWord m a w) :
    (a ≤ x.1 ∧ x.1 < a + 4) ∨ x ∈ m := by
  have key : x.1 = a + 3 ∨ x.1 = a + 2 ∨ x.1 = a + 1 ∨ x.1 = a ∨ x ∈ m :=
    (Memory.mem_setByte h).imp id fun h => (Memory.mem_setByte h).imp id fun h =>
      (Memory.mem_setByte h).imp id Memory.mem_setByte
  by_cases hm : x ∈ m
  · exact .inr hm
  · simp only [hm, or_false] at key
    exact .inl (by omega)

theorem mem_writeOuts (n : Nat) (f : Nat → Word) (m : Memory) {x : Host.Cell} (h : x ∈ writeOuts n f m) :
    (outAddr 0 ≤ x.1 ∧ x.1 < outAddr n) ∨ x ∈ m := by
  induction n with
  | zero => exact .inr h
  | succ n ih =>
    simp only [writeOuts] at h
    simp only [outAddr] at *
    rcases mem_putWord h with h | h
    · exact .inl (by omega)
    · rcases ih h with h | h
      · exact .inl (by omega)
      · exact .inr h

end Sys2Proof.Machine
end

