-- ==== Sys2Proof/Laws/State.lean ====
section
/-! SUPPORT. One lemma per field per named update of State: what the update writes and what it leaves. -/

namespace Sys2Proof.Machine

@[simp] theorem State.putIn_cfg (s : State) (i : Nat) (w : Word) :
    (s.putIn i w).cfg = s.cfg := rfl
@[simp] theorem State.putIn_busy (s : State) (i : Nat) (w : Word) :
    (s.putIn i w).busy = s.busy := rfl
@[simp] theorem State.putIn_done (s : State) (i : Nat) (w : Word) :
    (s.putIn i w).done = s.done := rfl
@[simp] theorem State.putIn_tableValid (s : State) (i : Nat) (w : Word) :
    (s.putIn i w).tableValid = s.tableValid := rfl
@[simp] theorem State.putIn_cmdOvr (s : State) (i : Nat) (w : Word) :
    (s.putIn i w).cmdOvr = s.cmdOvr := rfl
@[simp] theorem State.putIn_err (s : State) (i : Nat) (w : Word) :
    (s.putIn i w).err = s.err := rfl
@[simp] theorem State.putIn_irqEn (s : State) (i : Nat) (w : Word) :
    (s.putIn i w).irqEn = s.irqEn := rfl
@[simp] theorem State.putIn_args (s : State) (i : Nat) (w : Word) :
    (s.putIn i w).args = s.args := rfl
@[simp] theorem State.putIn_result0 (s : State) (i : Nat) (w : Word) :
    (s.putIn i w).result0 = s.result0 := rfl
@[simp] theorem State.putIn_result1 (s : State) (i : Nat) (w : Word) :
    (s.putIn i w).result1 = s.result1 := rfl
@[simp] theorem State.putIn_ctLen (s : State) (i : Nat) (w : Word) :
    (s.putIn i w).ctLen = s.ctLen := rfl
@[simp] theorem State.putIn_ctPrns (s : State) (i : Nat) (w : Word) :
    (s.putIn i w).ctPrns = s.ctPrns := rfl
@[simp] theorem State.putIn_table (s : State) (i : Nat) (w : Word) :
    (s.putIn i w).table = s.table := rfl
@[simp] theorem State.putIn_mem (s : State) (i : Nat) (w : Word) :
    (s.putIn i w).mem = Memory.putWord s.mem (inAddr i) w := rfl
@[simp] theorem State.putIn_cmd (s : State) (i : Nat) (w : Word) :
    (s.putIn i w).cmd = s.cmd := rfl
@[simp] theorem State.putIn_snap (s : State) (i : Nat) (w : Word) :
    (s.putIn i w).snap = s.snap := rfl
@[simp] theorem State.putIn_raced (s : State) (i : Nat) (w : Word) :
    (s.putIn i w).raced = s.raced := rfl
@[simp] theorem State.putIn_draws (s : State) (i : Nat) (w : Word) :
    (s.putIn i w).draws = s.draws := rfl
@[simp] theorem State.putIn_fault (s : State) (i : Nat) (w : Word) :
    (s.putIn i w).fault = s.fault := rfl
@[simp] theorem State.putIn_rdata (s : State) (i : Nat) (w : Word) :
    (s.putIn i w).rdata = s.rdata := rfl
@[simp] theorem State.putIn_pending (s : State) (i : Nat) (w : Word) :
    (s.putIn i w).pending = s.pending := rfl

@[simp] theorem State.putOuts_cfg (s : State) (n : Nat) (f : Nat → Word) :
    (s.putOuts n f).cfg = s.cfg := rfl
@[simp] theorem State.putOuts_busy (s : State) (n : Nat) (f : Nat → Word) :
    (s.putOuts n f).busy = s.busy := rfl
@[simp] theorem State.putOuts_done (s : State) (n : Nat) (f : Nat → Word) :
    (s.putOuts n f).done = s.done := rfl
@[simp] theorem State.putOuts_tableValid (s : State) (n : Nat) (f : Nat → Word) :
    (s.putOuts n f).tableValid = s.tableValid := rfl
@[simp] theorem State.putOuts_cmdOvr (s : State) (n : Nat) (f : Nat → Word) :
    (s.putOuts n f).cmdOvr = s.cmdOvr := rfl
@[simp] theorem State.putOuts_err (s : State) (n : Nat) (f : Nat → Word) :
    (s.putOuts n f).err = s.err := rfl
@[simp] theorem State.putOuts_irqEn (s : State) (n : Nat) (f : Nat → Word) :
    (s.putOuts n f).irqEn = s.irqEn := rfl
@[simp] theorem State.putOuts_args (s : State) (n : Nat) (f : Nat → Word) :
    (s.putOuts n f).args = s.args := rfl
@[simp] theorem State.putOuts_result0 (s : State) (n : Nat) (f : Nat → Word) :
    (s.putOuts n f).result0 = s.result0 := rfl
@[simp] theorem State.putOuts_result1 (s : State) (n : Nat) (f : Nat → Word) :
    (s.putOuts n f).result1 = s.result1 := rfl
@[simp] theorem State.putOuts_ctLen (s : State) (n : Nat) (f : Nat → Word) :
    (s.putOuts n f).ctLen = s.ctLen := rfl
@[simp] theorem State.putOuts_ctPrns (s : State) (n : Nat) (f : Nat → Word) :
    (s.putOuts n f).ctPrns = s.ctPrns := rfl
@[simp] theorem State.putOuts_table (s : State) (n : Nat) (f : Nat → Word) :
    (s.putOuts n f).table = s.table := rfl
@[simp] theorem State.putOuts_mem (s : State) (n : Nat) (f : Nat → Word) :
    (s.putOuts n f).mem = writeOuts n f s.mem := rfl
@[simp] theorem State.putOuts_cmd (s : State) (n : Nat) (f : Nat → Word) :
    (s.putOuts n f).cmd = s.cmd := rfl
@[simp] theorem State.putOuts_snap (s : State) (n : Nat) (f : Nat → Word) :
    (s.putOuts n f).snap = s.snap := rfl
@[simp] theorem State.putOuts_raced (s : State) (n : Nat) (f : Nat → Word) :
    (s.putOuts n f).raced = s.raced := rfl
@[simp] theorem State.putOuts_draws (s : State) (n : Nat) (f : Nat → Word) :
    (s.putOuts n f).draws = s.draws := rfl
@[simp] theorem State.putOuts_fault (s : State) (n : Nat) (f : Nat → Word) :
    (s.putOuts n f).fault = s.fault := rfl
@[simp] theorem State.putOuts_rdata (s : State) (n : Nat) (f : Nat → Word) :
    (s.putOuts n f).rdata = s.rdata := rfl
@[simp] theorem State.putOuts_pending (s : State) (n : Nat) (f : Nat → Word) :
    (s.putOuts n f).pending = s.pending := rfl

@[simp] theorem State.putChip_cfg (s : State) (r c : Nat) (v : Option Byte) :
    (s.putChip r c v).cfg = s.cfg := rfl
@[simp] theorem State.putChip_busy (s : State) (r c : Nat) (v : Option Byte) :
    (s.putChip r c v).busy = s.busy := rfl
@[simp] theorem State.putChip_done (s : State) (r c : Nat) (v : Option Byte) :
    (s.putChip r c v).done = s.done := rfl
@[simp] theorem State.putChip_tableValid (s : State) (r c : Nat) (v : Option Byte) :
    (s.putChip r c v).tableValid = s.tableValid := rfl
@[simp] theorem State.putChip_cmdOvr (s : State) (r c : Nat) (v : Option Byte) :
    (s.putChip r c v).cmdOvr = s.cmdOvr := rfl
@[simp] theorem State.putChip_err (s : State) (r c : Nat) (v : Option Byte) :
    (s.putChip r c v).err = s.err := rfl
@[simp] theorem State.putChip_irqEn (s : State) (r c : Nat) (v : Option Byte) :
    (s.putChip r c v).irqEn = s.irqEn := rfl
@[simp] theorem State.putChip_args (s : State) (r c : Nat) (v : Option Byte) :
    (s.putChip r c v).args = s.args := rfl
@[simp] theorem State.putChip_result0 (s : State) (r c : Nat) (v : Option Byte) :
    (s.putChip r c v).result0 = s.result0 := rfl
@[simp] theorem State.putChip_result1 (s : State) (r c : Nat) (v : Option Byte) :
    (s.putChip r c v).result1 = s.result1 := rfl
@[simp] theorem State.putChip_ctLen (s : State) (r c : Nat) (v : Option Byte) :
    (s.putChip r c v).ctLen = s.ctLen := rfl
@[simp] theorem State.putChip_ctPrns (s : State) (r c : Nat) (v : Option Byte) :
    (s.putChip r c v).ctPrns = s.ctPrns := rfl
@[simp] theorem State.putChip_table (s : State) (r c : Nat) (v : Option Byte) :
    (s.putChip r c v).table = Memory.putCell s.table (cellKey r c) v := rfl
@[simp] theorem State.putChip_mem (s : State) (r c : Nat) (v : Option Byte) :
    (s.putChip r c v).mem = s.mem := rfl
@[simp] theorem State.putChip_cmd (s : State) (r c : Nat) (v : Option Byte) :
    (s.putChip r c v).cmd = s.cmd := rfl
@[simp] theorem State.putChip_snap (s : State) (r c : Nat) (v : Option Byte) :
    (s.putChip r c v).snap = s.snap := rfl
@[simp] theorem State.putChip_raced (s : State) (r c : Nat) (v : Option Byte) :
    (s.putChip r c v).raced = s.raced := rfl
@[simp] theorem State.putChip_draws (s : State) (r c : Nat) (v : Option Byte) :
    (s.putChip r c v).draws = s.draws := rfl
@[simp] theorem State.putChip_fault (s : State) (r c : Nat) (v : Option Byte) :
    (s.putChip r c v).fault = s.fault := rfl
@[simp] theorem State.putChip_rdata (s : State) (r c : Nat) (v : Option Byte) :
    (s.putChip r c v).rdata = s.rdata := rfl
@[simp] theorem State.putChip_pending (s : State) (r c : Nat) (v : Option Byte) :
    (s.putChip r c v).pending = s.pending := rfl

@[simp] theorem State.buildTable_cfg (s : State) (len prns : Nat) :
    (s.buildTable len prns).cfg = s.cfg := rfl
@[simp] theorem State.buildTable_busy (s : State) (len prns : Nat) :
    (s.buildTable len prns).busy = s.busy := rfl
@[simp] theorem State.buildTable_done (s : State) (len prns : Nat) :
    (s.buildTable len prns).done = s.done := rfl
@[simp] theorem State.buildTable_tableValid (s : State) (len prns : Nat) :
    (s.buildTable len prns).tableValid = true := rfl
@[simp] theorem State.buildTable_cmdOvr (s : State) (len prns : Nat) :
    (s.buildTable len prns).cmdOvr = s.cmdOvr := rfl
@[simp] theorem State.buildTable_err (s : State) (len prns : Nat) :
    (s.buildTable len prns).err = s.err := rfl
@[simp] theorem State.buildTable_irqEn (s : State) (len prns : Nat) :
    (s.buildTable len prns).irqEn = s.irqEn := rfl
@[simp] theorem State.buildTable_args (s : State) (len prns : Nat) :
    (s.buildTable len prns).args = s.args := rfl
@[simp] theorem State.buildTable_result0 (s : State) (len prns : Nat) :
    (s.buildTable len prns).result0 = s.result0 := rfl
@[simp] theorem State.buildTable_result1 (s : State) (len prns : Nat) :
    (s.buildTable len prns).result1 = s.result1 := rfl
@[simp] theorem State.buildTable_ctLen (s : State) (len prns : Nat) :
    (s.buildTable len prns).ctLen = BitVec.ofNat 24 len := rfl
@[simp] theorem State.buildTable_ctPrns (s : State) (len prns : Nat) :
    (s.buildTable len prns).ctPrns = BitVec.ofNat 16 prns := rfl
@[simp] theorem State.buildTable_table (s : State) (len prns : Nat) :
    (s.buildTable len prns).table = fillGuards len prns s.table := rfl
@[simp] theorem State.buildTable_mem (s : State) (len prns : Nat) :
    (s.buildTable len prns).mem = s.mem := rfl
@[simp] theorem State.buildTable_cmd (s : State) (len prns : Nat) :
    (s.buildTable len prns).cmd = s.cmd := rfl
@[simp] theorem State.buildTable_snap (s : State) (len prns : Nat) :
    (s.buildTable len prns).snap = s.snap := rfl
@[simp] theorem State.buildTable_raced (s : State) (len prns : Nat) :
    (s.buildTable len prns).raced = s.raced := rfl
@[simp] theorem State.buildTable_draws (s : State) (len prns : Nat) :
    (s.buildTable len prns).draws = s.draws := rfl
@[simp] theorem State.buildTable_fault (s : State) (len prns : Nat) :
    (s.buildTable len prns).fault = s.fault := rfl
@[simp] theorem State.buildTable_rdata (s : State) (len prns : Nat) :
    (s.buildTable len prns).rdata = s.rdata := rfl
@[simp] theorem State.buildTable_pending (s : State) (len prns : Nat) :
    (s.buildTable len prns).pending = s.pending := rfl

@[simp] theorem State.setResults_cfg (s : State) (r0 r1 : Word) :
    (s.setResults r0 r1).cfg = s.cfg := rfl
@[simp] theorem State.setResults_busy (s : State) (r0 r1 : Word) :
    (s.setResults r0 r1).busy = s.busy := rfl
@[simp] theorem State.setResults_done (s : State) (r0 r1 : Word) :
    (s.setResults r0 r1).done = s.done := rfl
@[simp] theorem State.setResults_tableValid (s : State) (r0 r1 : Word) :
    (s.setResults r0 r1).tableValid = s.tableValid := rfl
@[simp] theorem State.setResults_cmdOvr (s : State) (r0 r1 : Word) :
    (s.setResults r0 r1).cmdOvr = s.cmdOvr := rfl
@[simp] theorem State.setResults_err (s : State) (r0 r1 : Word) :
    (s.setResults r0 r1).err = s.err := rfl
@[simp] theorem State.setResults_irqEn (s : State) (r0 r1 : Word) :
    (s.setResults r0 r1).irqEn = s.irqEn := rfl
@[simp] theorem State.setResults_args (s : State) (r0 r1 : Word) :
    (s.setResults r0 r1).args = s.args := rfl
@[simp] theorem State.setResults_result0 (s : State) (r0 r1 : Word) :
    (s.setResults r0 r1).result0 = r0 := rfl
@[simp] theorem State.setResults_result1 (s : State) (r0 r1 : Word) :
    (s.setResults r0 r1).result1 = r1 := rfl
@[simp] theorem State.setResults_ctLen (s : State) (r0 r1 : Word) :
    (s.setResults r0 r1).ctLen = s.ctLen := rfl
@[simp] theorem State.setResults_ctPrns (s : State) (r0 r1 : Word) :
    (s.setResults r0 r1).ctPrns = s.ctPrns := rfl
@[simp] theorem State.setResults_table (s : State) (r0 r1 : Word) :
    (s.setResults r0 r1).table = s.table := rfl
@[simp] theorem State.setResults_mem (s : State) (r0 r1 : Word) :
    (s.setResults r0 r1).mem = s.mem := rfl
@[simp] theorem State.setResults_cmd (s : State) (r0 r1 : Word) :
    (s.setResults r0 r1).cmd = s.cmd := rfl
@[simp] theorem State.setResults_snap (s : State) (r0 r1 : Word) :
    (s.setResults r0 r1).snap = s.snap := rfl
@[simp] theorem State.setResults_raced (s : State) (r0 r1 : Word) :
    (s.setResults r0 r1).raced = s.raced := rfl
@[simp] theorem State.setResults_draws (s : State) (r0 r1 : Word) :
    (s.setResults r0 r1).draws = s.draws := rfl
@[simp] theorem State.setResults_fault (s : State) (r0 r1 : Word) :
    (s.setResults r0 r1).fault = s.fault := rfl
@[simp] theorem State.setResults_rdata (s : State) (r0 r1 : Word) :
    (s.setResults r0 r1).rdata = s.rdata := rfl
@[simp] theorem State.setResults_pending (s : State) (r0 r1 : Word) :
    (s.setResults r0 r1).pending = s.pending := rfl

@[simp] theorem State.noteUnwritten_cfg (s : State) (u : Bool) :
    (s.noteUnwritten u).cfg = s.cfg := by unfold State.noteUnwritten; split <;> rfl
@[simp] theorem State.noteUnwritten_busy (s : State) (u : Bool) :
    (s.noteUnwritten u).busy = s.busy := by unfold State.noteUnwritten; split <;> rfl
@[simp] theorem State.noteUnwritten_done (s : State) (u : Bool) :
    (s.noteUnwritten u).done = s.done := by unfold State.noteUnwritten; split <;> rfl
@[simp] theorem State.noteUnwritten_tableValid (s : State) (u : Bool) :
    (s.noteUnwritten u).tableValid = s.tableValid := by unfold State.noteUnwritten; split <;> rfl
@[simp] theorem State.noteUnwritten_cmdOvr (s : State) (u : Bool) :
    (s.noteUnwritten u).cmdOvr = s.cmdOvr := by unfold State.noteUnwritten; split <;> rfl
@[simp] theorem State.noteUnwritten_err (s : State) (u : Bool) :
    (s.noteUnwritten u).err = s.err := by unfold State.noteUnwritten; split <;> rfl
@[simp] theorem State.noteUnwritten_irqEn (s : State) (u : Bool) :
    (s.noteUnwritten u).irqEn = s.irqEn := by unfold State.noteUnwritten; split <;> rfl
@[simp] theorem State.noteUnwritten_args (s : State) (u : Bool) :
    (s.noteUnwritten u).args = s.args := by unfold State.noteUnwritten; split <;> rfl
@[simp] theorem State.noteUnwritten_result0 (s : State) (u : Bool) :
    (s.noteUnwritten u).result0 = s.result0 := by unfold State.noteUnwritten; split <;> rfl
@[simp] theorem State.noteUnwritten_result1 (s : State) (u : Bool) :
    (s.noteUnwritten u).result1 = s.result1 := by unfold State.noteUnwritten; split <;> rfl
@[simp] theorem State.noteUnwritten_ctLen (s : State) (u : Bool) :
    (s.noteUnwritten u).ctLen = s.ctLen := by unfold State.noteUnwritten; split <;> rfl
@[simp] theorem State.noteUnwritten_ctPrns (s : State) (u : Bool) :
    (s.noteUnwritten u).ctPrns = s.ctPrns := by unfold State.noteUnwritten; split <;> rfl
@[simp] theorem State.noteUnwritten_table (s : State) (u : Bool) :
    (s.noteUnwritten u).table = s.table := by unfold State.noteUnwritten; split <;> rfl
@[simp] theorem State.noteUnwritten_mem (s : State) (u : Bool) :
    (s.noteUnwritten u).mem = s.mem := by unfold State.noteUnwritten; split <;> rfl
@[simp] theorem State.noteUnwritten_cmd (s : State) (u : Bool) :
    (s.noteUnwritten u).cmd = s.cmd := by unfold State.noteUnwritten; split <;> rfl
@[simp] theorem State.noteUnwritten_snap (s : State) (u : Bool) :
    (s.noteUnwritten u).snap = s.snap := by unfold State.noteUnwritten; split <;> rfl
@[simp] theorem State.noteUnwritten_raced (s : State) (u : Bool) :
    (s.noteUnwritten u).raced = s.raced := by unfold State.noteUnwritten; split <;> rfl
@[simp] theorem State.noteUnwritten_draws (s : State) (u : Bool) :
    (s.noteUnwritten u).draws = s.draws := by unfold State.noteUnwritten; split <;> rfl
@[simp] theorem State.noteUnwritten_fault (s : State) (u : Bool) :
    (s.noteUnwritten u).fault = if u then some .unwrittenCell else s.fault := by unfold State.noteUnwritten; split <;> rfl
@[simp] theorem State.noteUnwritten_rdata (s : State) (u : Bool) :
    (s.noteUnwritten u).rdata = s.rdata := by unfold State.noteUnwritten; split <;> rfl
@[simp] theorem State.noteUnwritten_pending (s : State) (u : Bool) :
    (s.noteUnwritten u).pending = s.pending := by unfold State.noteUnwritten; split <;> rfl

@[simp] theorem State.accept_cfg (s : State) (w : Word) :
    (s.accept w).cfg = s.cfg := rfl
@[simp] theorem State.accept_busy (s : State) (w : Word) :
    (s.accept w).busy = true := rfl
@[simp] theorem State.accept_done (s : State) (w : Word) :
    (s.accept w).done = false := rfl
@[simp] theorem State.accept_tableValid (s : State) (w : Word) :
    (s.accept w).tableValid = if w = 0x00000001#32 ∨ w = 0x00000002#32 then false else s.tableValid := rfl
@[simp] theorem State.accept_cmdOvr (s : State) (w : Word) :
    (s.accept w).cmdOvr = s.cmdOvr := rfl
@[simp] theorem State.accept_err (s : State) (w : Word) :
    (s.accept w).err = .ok := rfl
@[simp] theorem State.accept_irqEn (s : State) (w : Word) :
    (s.accept w).irqEn = s.irqEn := rfl
@[simp] theorem State.accept_args (s : State) (w : Word) :
    (s.accept w).args = s.args := rfl
@[simp] theorem State.accept_result0 (s : State) (w : Word) :
    (s.accept w).result0 = s.result0 := rfl
@[simp] theorem State.accept_result1 (s : State) (w : Word) :
    (s.accept w).result1 = s.result1 := rfl
@[simp] theorem State.accept_ctLen (s : State) (w : Word) :
    (s.accept w).ctLen = s.ctLen := rfl
@[simp] theorem State.accept_ctPrns (s : State) (w : Word) :
    (s.accept w).ctPrns = s.ctPrns := rfl
@[simp] theorem State.accept_table (s : State) (w : Word) :
    (s.accept w).table = s.table := rfl
@[simp] theorem State.accept_mem (s : State) (w : Word) :
    (s.accept w).mem = s.mem := rfl
@[simp] theorem State.accept_cmd (s : State) (w : Word) :
    (s.accept w).cmd = w := rfl
@[simp] theorem State.accept_snap (s : State) (w : Word) :
    (s.accept w).snap = s.args := rfl
@[simp] theorem State.accept_raced (s : State) (w : Word) :
    (s.accept w).raced = [] := rfl
@[simp] theorem State.accept_draws (s : State) (w : Word) :
    (s.accept w).draws = s.draws := rfl
@[simp] theorem State.accept_fault (s : State) (w : Word) :
    (s.accept w).fault = s.fault := rfl
@[simp] theorem State.accept_rdata (s : State) (w : Word) :
    (s.accept w).rdata = s.rdata := rfl
@[simp] theorem State.accept_pending (s : State) (w : Word) :
    (s.accept w).pending = s.pending := rfl

@[simp] theorem State.complete_cfg (s : State) (e : StatusCode) :
    (s.complete e).cfg = s.cfg := rfl
@[simp] theorem State.complete_busy (s : State) (e : StatusCode) :
    (s.complete e).busy = false := rfl
@[simp] theorem State.complete_done (s : State) (e : StatusCode) :
    (s.complete e).done = true := rfl
@[simp] theorem State.complete_tableValid (s : State) (e : StatusCode) :
    (s.complete e).tableValid = s.tableValid := rfl
@[simp] theorem State.complete_cmdOvr (s : State) (e : StatusCode) :
    (s.complete e).cmdOvr = s.cmdOvr := rfl
@[simp] theorem State.complete_err (s : State) (e : StatusCode) :
    (s.complete e).err = e := rfl
@[simp] theorem State.complete_irqEn (s : State) (e : StatusCode) :
    (s.complete e).irqEn = s.irqEn := rfl
@[simp] theorem State.complete_args (s : State) (e : StatusCode) :
    (s.complete e).args = s.args := rfl
@[simp] theorem State.complete_result0 (s : State) (e : StatusCode) :
    (s.complete e).result0 = s.result0 := rfl
@[simp] theorem State.complete_result1 (s : State) (e : StatusCode) :
    (s.complete e).result1 = s.result1 := rfl
@[simp] theorem State.complete_ctLen (s : State) (e : StatusCode) :
    (s.complete e).ctLen = s.ctLen := rfl
@[simp] theorem State.complete_ctPrns (s : State) (e : StatusCode) :
    (s.complete e).ctPrns = s.ctPrns := rfl
@[simp] theorem State.complete_table (s : State) (e : StatusCode) :
    (s.complete e).table = s.table := rfl
@[simp] theorem State.complete_mem (s : State) (e : StatusCode) :
    (s.complete e).mem = s.mem := rfl
@[simp] theorem State.complete_cmd (s : State) (e : StatusCode) :
    (s.complete e).cmd = 0 := rfl
@[simp] theorem State.complete_snap (s : State) (e : StatusCode) :
    (s.complete e).snap = Args.zero := rfl
@[simp] theorem State.complete_raced (s : State) (e : StatusCode) :
    (s.complete e).raced = [] := rfl
@[simp] theorem State.complete_draws (s : State) (e : StatusCode) :
    (s.complete e).draws = s.draws + 1 := rfl
@[simp] theorem State.complete_fault (s : State) (e : StatusCode) :
    (s.complete e).fault = s.fault := rfl
@[simp] theorem State.complete_rdata (s : State) (e : StatusCode) :
    (s.complete e).rdata = s.rdata := rfl
@[simp] theorem State.complete_pending (s : State) (e : StatusCode) :
    (s.complete e).pending = s.pending := rfl

@[simp] theorem State.tick_cfg (s : State) :
    (s.tick).cfg = s.cfg := rfl
@[simp] theorem State.tick_busy (s : State) :
    (s.tick).busy = s.busy := rfl
@[simp] theorem State.tick_done (s : State) :
    (s.tick).done = s.done := rfl
@[simp] theorem State.tick_tableValid (s : State) :
    (s.tick).tableValid = s.tableValid := rfl
@[simp] theorem State.tick_cmdOvr (s : State) :
    (s.tick).cmdOvr = s.cmdOvr := rfl
@[simp] theorem State.tick_err (s : State) :
    (s.tick).err = s.err := rfl
@[simp] theorem State.tick_irqEn (s : State) :
    (s.tick).irqEn = s.irqEn := rfl
@[simp] theorem State.tick_args (s : State) :
    (s.tick).args = s.args := rfl
@[simp] theorem State.tick_result0 (s : State) :
    (s.tick).result0 = s.result0 := rfl
@[simp] theorem State.tick_result1 (s : State) :
    (s.tick).result1 = s.result1 := rfl
@[simp] theorem State.tick_ctLen (s : State) :
    (s.tick).ctLen = s.ctLen := rfl
@[simp] theorem State.tick_ctPrns (s : State) :
    (s.tick).ctPrns = s.ctPrns := rfl
@[simp] theorem State.tick_table (s : State) :
    (s.tick).table = s.table := rfl
@[simp] theorem State.tick_mem (s : State) :
    (s.tick).mem = s.mem := rfl
@[simp] theorem State.tick_cmd (s : State) :
    (s.tick).cmd = s.cmd := rfl
@[simp] theorem State.tick_snap (s : State) :
    (s.tick).snap = s.snap := rfl
@[simp] theorem State.tick_raced (s : State) :
    (s.tick).raced = s.raced := rfl
@[simp] theorem State.tick_draws (s : State) :
    (s.tick).draws = s.draws + 1 := rfl
@[simp] theorem State.tick_fault (s : State) :
    (s.tick).fault = s.fault := rfl
@[simp] theorem State.tick_rdata (s : State) :
    (s.tick).rdata = s.rdata := rfl
@[simp] theorem State.tick_pending (s : State) :
    (s.tick).pending = s.pending := rfl

@[simp] theorem State.writeStatus_cfg (s : State) (w : Word) :
    (s.writeStatus w).cfg = s.cfg := rfl
@[simp] theorem State.writeStatus_busy (s : State) (w : Word) :
    (s.writeStatus w).busy = s.busy := rfl
@[simp] theorem State.writeStatus_done (s : State) (w : Word) :
    (s.writeStatus w).done = if w.getLsbD 1 then false else s.done := rfl
@[simp] theorem State.writeStatus_tableValid (s : State) (w : Word) :
    (s.writeStatus w).tableValid = s.tableValid := rfl
@[simp] theorem State.writeStatus_cmdOvr (s : State) (w : Word) :
    (s.writeStatus w).cmdOvr = if w.getLsbD 3 then false else s.cmdOvr := rfl
@[simp] theorem State.writeStatus_err (s : State) (w : Word) :
    (s.writeStatus w).err = s.err := rfl
@[simp] theorem State.writeStatus_irqEn (s : State) (w : Word) :
    (s.writeStatus w).irqEn = s.irqEn := rfl
@[simp] theorem State.writeStatus_args (s : State) (w : Word) :
    (s.writeStatus w).args = s.args := rfl
@[simp] theorem State.writeStatus_result0 (s : State) (w : Word) :
    (s.writeStatus w).result0 = s.result0 := rfl
@[simp] theorem State.writeStatus_result1 (s : State) (w : Word) :
    (s.writeStatus w).result1 = s.result1 := rfl
@[simp] theorem State.writeStatus_ctLen (s : State) (w : Word) :
    (s.writeStatus w).ctLen = s.ctLen := rfl
@[simp] theorem State.writeStatus_ctPrns (s : State) (w : Word) :
    (s.writeStatus w).ctPrns = s.ctPrns := rfl
@[simp] theorem State.writeStatus_table (s : State) (w : Word) :
    (s.writeStatus w).table = s.table := rfl
@[simp] theorem State.writeStatus_mem (s : State) (w : Word) :
    (s.writeStatus w).mem = s.mem := rfl
@[simp] theorem State.writeStatus_cmd (s : State) (w : Word) :
    (s.writeStatus w).cmd = s.cmd := rfl
@[simp] theorem State.writeStatus_snap (s : State) (w : Word) :
    (s.writeStatus w).snap = s.snap := rfl
@[simp] theorem State.writeStatus_raced (s : State) (w : Word) :
    (s.writeStatus w).raced = s.raced := rfl
@[simp] theorem State.writeStatus_draws (s : State) (w : Word) :
    (s.writeStatus w).draws = s.draws := rfl
@[simp] theorem State.writeStatus_fault (s : State) (w : Word) :
    (s.writeStatus w).fault = s.fault := rfl
@[simp] theorem State.writeStatus_rdata (s : State) (w : Word) :
    (s.writeStatus w).rdata = s.rdata := rfl
@[simp] theorem State.writeStatus_pending (s : State) (w : Word) :
    (s.writeStatus w).pending = s.pending := rfl

@[simp] theorem State.writeCtrl_cfg (s : State) (w : Word) :
    (s.writeCtrl w).cfg = s.cfg := rfl
@[simp] theorem State.writeCtrl_busy (s : State) (w : Word) :
    (s.writeCtrl w).busy = s.busy := rfl
@[simp] theorem State.writeCtrl_done (s : State) (w : Word) :
    (s.writeCtrl w).done = s.done := rfl
@[simp] theorem State.writeCtrl_tableValid (s : State) (w : Word) :
    (s.writeCtrl w).tableValid = s.tableValid := rfl
@[simp] theorem State.writeCtrl_cmdOvr (s : State) (w : Word) :
    (s.writeCtrl w).cmdOvr = s.cmdOvr := rfl
@[simp] theorem State.writeCtrl_err (s : State) (w : Word) :
    (s.writeCtrl w).err = s.err := rfl
@[simp] theorem State.writeCtrl_irqEn (s : State) (w : Word) :
    (s.writeCtrl w).irqEn = w.getLsbD 0 := rfl
@[simp] theorem State.writeCtrl_args (s : State) (w : Word) :
    (s.writeCtrl w).args = s.args := rfl
@[simp] theorem State.writeCtrl_result0 (s : State) (w : Word) :
    (s.writeCtrl w).result0 = s.result0 := rfl
@[simp] theorem State.writeCtrl_result1 (s : State) (w : Word) :
    (s.writeCtrl w).result1 = s.result1 := rfl
@[simp] theorem State.writeCtrl_ctLen (s : State) (w : Word) :
    (s.writeCtrl w).ctLen = s.ctLen := rfl
@[simp] theorem State.writeCtrl_ctPrns (s : State) (w : Word) :
    (s.writeCtrl w).ctPrns = s.ctPrns := rfl
@[simp] theorem State.writeCtrl_table (s : State) (w : Word) :
    (s.writeCtrl w).table = s.table := rfl
@[simp] theorem State.writeCtrl_mem (s : State) (w : Word) :
    (s.writeCtrl w).mem = s.mem := rfl
@[simp] theorem State.writeCtrl_cmd (s : State) (w : Word) :
    (s.writeCtrl w).cmd = s.cmd := rfl
@[simp] theorem State.writeCtrl_snap (s : State) (w : Word) :
    (s.writeCtrl w).snap = s.snap := rfl
@[simp] theorem State.writeCtrl_raced (s : State) (w : Word) :
    (s.writeCtrl w).raced = s.raced := rfl
@[simp] theorem State.writeCtrl_draws (s : State) (w : Word) :
    (s.writeCtrl w).draws = s.draws := rfl
@[simp] theorem State.writeCtrl_fault (s : State) (w : Word) :
    (s.writeCtrl w).fault = s.fault := rfl
@[simp] theorem State.writeCtrl_rdata (s : State) (w : Word) :
    (s.writeCtrl w).rdata = s.rdata := rfl
@[simp] theorem State.writeCtrl_pending (s : State) (w : Word) :
    (s.writeCtrl w).pending = s.pending := rfl

@[simp] theorem State.noteRace_cfg (s : State) (i : Nat) :
    (s.noteRace i).cfg = s.cfg := by unfold State.noteRace; split <;> rfl
@[simp] theorem State.noteRace_busy (s : State) (i : Nat) :
    (s.noteRace i).busy = s.busy := by unfold State.noteRace; split <;> rfl
@[simp] theorem State.noteRace_done (s : State) (i : Nat) :
    (s.noteRace i).done = s.done := by unfold State.noteRace; split <;> rfl
@[simp] theorem State.noteRace_tableValid (s : State) (i : Nat) :
    (s.noteRace i).tableValid = s.tableValid := by unfold State.noteRace; split <;> rfl
@[simp] theorem State.noteRace_cmdOvr (s : State) (i : Nat) :
    (s.noteRace i).cmdOvr = s.cmdOvr := by unfold State.noteRace; split <;> rfl
@[simp] theorem State.noteRace_err (s : State) (i : Nat) :
    (s.noteRace i).err = s.err := by unfold State.noteRace; split <;> rfl
@[simp] theorem State.noteRace_irqEn (s : State) (i : Nat) :
    (s.noteRace i).irqEn = s.irqEn := by unfold State.noteRace; split <;> rfl
@[simp] theorem State.noteRace_args (s : State) (i : Nat) :
    (s.noteRace i).args = s.args := by unfold State.noteRace; split <;> rfl
@[simp] theorem State.noteRace_result0 (s : State) (i : Nat) :
    (s.noteRace i).result0 = s.result0 := by unfold State.noteRace; split <;> rfl
@[simp] theorem State.noteRace_result1 (s : State) (i : Nat) :
    (s.noteRace i).result1 = s.result1 := by unfold State.noteRace; split <;> rfl
@[simp] theorem State.noteRace_ctLen (s : State) (i : Nat) :
    (s.noteRace i).ctLen = s.ctLen := by unfold State.noteRace; split <;> rfl
@[simp] theorem State.noteRace_ctPrns (s : State) (i : Nat) :
    (s.noteRace i).ctPrns = s.ctPrns := by unfold State.noteRace; split <;> rfl
@[simp] theorem State.noteRace_table (s : State) (i : Nat) :
    (s.noteRace i).table = s.table := by unfold State.noteRace; split <;> rfl
@[simp] theorem State.noteRace_mem (s : State) (i : Nat) :
    (s.noteRace i).mem = s.mem := by unfold State.noteRace; split <;> rfl
@[simp] theorem State.noteRace_cmd (s : State) (i : Nat) :
    (s.noteRace i).cmd = s.cmd := by unfold State.noteRace; split <;> rfl
@[simp] theorem State.noteRace_snap (s : State) (i : Nat) :
    (s.noteRace i).snap = s.snap := by unfold State.noteRace; split <;> rfl
@[simp] theorem State.noteRace_draws (s : State) (i : Nat) :
    (s.noteRace i).draws = s.draws := by unfold State.noteRace; split <;> rfl
@[simp] theorem State.noteRace_fault (s : State) (i : Nat) :
    (s.noteRace i).fault = s.fault := by unfold State.noteRace; split <;> rfl
@[simp] theorem State.noteRace_rdata (s : State) (i : Nat) :
    (s.noteRace i).rdata = s.rdata := by unfold State.noteRace; split <;> rfl
@[simp] theorem State.noteRace_pending (s : State) (i : Nat) :
    (s.noteRace i).pending = s.pending := by unfold State.noteRace; split <;> rfl

@[simp] theorem hostRead_cfg (addr : BusAddr) (s : State) : (hostRead addr s).cfg = s.cfg := rfl
@[simp] theorem hostRead_busy (addr : BusAddr) (s : State) : (hostRead addr s).busy = s.busy := rfl
@[simp] theorem hostRead_done (addr : BusAddr) (s : State) : (hostRead addr s).done = s.done := rfl
@[simp] theorem hostRead_tableValid (addr : BusAddr) (s : State) : (hostRead addr s).tableValid = s.tableValid := rfl
@[simp] theorem hostRead_cmdOvr (addr : BusAddr) (s : State) : (hostRead addr s).cmdOvr = s.cmdOvr := rfl
@[simp] theorem hostRead_err (addr : BusAddr) (s : State) : (hostRead addr s).err = s.err := rfl
@[simp] theorem hostRead_irqEn (addr : BusAddr) (s : State) : (hostRead addr s).irqEn = s.irqEn := rfl
@[simp] theorem hostRead_args (addr : BusAddr) (s : State) : (hostRead addr s).args = s.args := rfl
@[simp] theorem hostRead_result0 (addr : BusAddr) (s : State) : (hostRead addr s).result0 = s.result0 := rfl
@[simp] theorem hostRead_result1 (addr : BusAddr) (s : State) : (hostRead addr s).result1 = s.result1 := rfl
@[simp] theorem hostRead_ctLen (addr : BusAddr) (s : State) : (hostRead addr s).ctLen = s.ctLen := rfl
@[simp] theorem hostRead_ctPrns (addr : BusAddr) (s : State) : (hostRead addr s).ctPrns = s.ctPrns := rfl
@[simp] theorem hostRead_table (addr : BusAddr) (s : State) : (hostRead addr s).table = s.table := rfl
@[simp] theorem hostRead_mem (addr : BusAddr) (s : State) : (hostRead addr s).mem = s.mem := rfl
@[simp] theorem hostRead_cmd (addr : BusAddr) (s : State) : (hostRead addr s).cmd = s.cmd := rfl
@[simp] theorem hostRead_snap (addr : BusAddr) (s : State) : (hostRead addr s).snap = s.snap := rfl
@[simp] theorem hostRead_raced (addr : BusAddr) (s : State) : (hostRead addr s).raced = s.raced := rfl
@[simp] theorem hostRead_fault (addr : BusAddr) (s : State) : (hostRead addr s).fault = s.fault := rfl
@[simp] theorem hostRead_pending (addr : BusAddr) (s : State) : (hostRead addr s).pending = s.pending := rfl

@[simp] theorem hostReset_cfg (s : State) : (hostReset s).cfg = s.cfg := rfl
@[simp] theorem hostReset_busy (s : State) : (hostReset s).busy = false := rfl
@[simp] theorem hostReset_done (s : State) : (hostReset s).done = false := rfl
@[simp] theorem hostReset_tableValid (s : State) : (hostReset s).tableValid = false := rfl
@[simp] theorem hostReset_cmdOvr (s : State) : (hostReset s).cmdOvr = false := rfl
@[simp] theorem hostReset_err (s : State) : (hostReset s).err = .ok := rfl
@[simp] theorem hostReset_irqEn (s : State) : (hostReset s).irqEn = false := rfl
@[simp] theorem hostReset_args (s : State) : (hostReset s).args = Args.zero := rfl
@[simp] theorem hostReset_result0 (s : State) : (hostReset s).result0 = 0 := rfl
@[simp] theorem hostReset_result1 (s : State) : (hostReset s).result1 = 0 := rfl
@[simp] theorem hostReset_ctLen (s : State) : (hostReset s).ctLen = 0 := rfl
@[simp] theorem hostReset_ctPrns (s : State) : (hostReset s).ctPrns = 0 := rfl
@[simp] theorem hostReset_table (s : State) : (hostReset s).table = [] := rfl
@[simp] theorem hostReset_mem (s : State) : (hostReset s).mem = [] := rfl
@[simp] theorem hostReset_cmd (s : State) : (hostReset s).cmd = 0 := rfl
@[simp] theorem hostReset_snap (s : State) : (hostReset s).snap = Args.zero := rfl
@[simp] theorem hostReset_raced (s : State) : (hostReset s).raced = [] := rfl
@[simp] theorem hostReset_draws (s : State) : (hostReset s).draws = s.draws + 1 := rfl
@[simp] theorem hostReset_fault (s : State) : (hostReset s).fault = s.fault := rfl
@[simp] theorem hostReset_rdata (s : State) : (hostReset s).rdata = s.rdata := rfl
@[simp] theorem hostReset_pending (s : State) : (hostReset s).pending = s.pending := rfl

end Sys2Proof.Machine
end

