-- ==== Sys2Proof/Laws/Exec.lean ====
section
/-! SUPPORT. What a command can do, and what a step can do, each said once. -/

namespace Sys2Proof.Machine

/-- The body of each command: what `exec` concludes. -/
def bodyOf (i : Instr) (s : State) : Execution :=
  match i with
  | .nop => nopBody s
  | .ctWrite => ctWriteBody s
  | .ctBuild => ctBuildBody s
  | .ctRead => ctReadBody s
  | .ctReadUnchecked => ctReadUncheckedBody s
  | .codeSample => codeSampleBody s
  | .codePhase => codePhaseBody s
  | .carGen => carGenBody s
  | .carPhases => carPhasesBody s
  | .carLut => carLutBody s
  | .carEval => carEvalBody s
  | .carRomRead => carRomReadBody s

/-- `exec` runs the body and concludes the command (40_engine.md R122). -/
theorem exec_eq (i : Instr) (s : State) : exec i s = .next (s.conclude (bodyOf i s)) := by
  cases i <;> rfl

@[simp] theorem conclude_ok (s t : State) : s.conclude (.ok t) = t.complete .ok := rfl
@[simp] theorem conclude_error (s : State) (e : StatusCode) : s.conclude (.error e) = s.complete e := rfl

theorem checkCount_ok {s t : State} {x : Execution} (h : checkCount s x = .ok t) :
    opCount s.snap ≤ s.cfg.bufDepth ∧ x = .ok t := by
  unfold checkCount at h
  split at h
  · cases h
  · exact ⟨Nat.le_of_not_lt (by assumption), h⟩

/-- Everything a command that completes `OK` can have written: nothing, one interior code-table cell, the guard
rows and the shape, the result registers, or OUT words within the buffer. -/
theorem body_cases {i : Instr} {s t : State} (h : bodyOf i s = .ok t) :
    (i = .nop ∧ t = s) ∨
    (i = .ctWrite ∧ ∃ r c v, t = s.putChip r c (some v) ∧ 1 ≤ r ∧ r ≤ s.cfg.lMax ∧ c < s.cfg.prnMax) ∨
    (i = .ctBuild ∧ ∃ len prns, t = s.buildTable len prns ∧ 2 ≤ len ∧ len ≤ s.cfg.lMax ∧
      1 ≤ prns ∧ prns ≤ s.cfg.prnMax) ∨
    (writesResult i = true ∧ ∃ r0 r1 u, t = (s.setResults r0 r1).noteUnwritten u) ∨
    (writesOut i = true ∧ ∃ n f u, t = (s.putOuts n f).noteUnwritten u ∧ n ≤ s.cfg.bufDepth) := by
  cases i with
  | nop => cases h; exact .inl ⟨rfl, rfl⟩
  | ctWrite =>
    simp only [bodyOf, ctWriteBody] at h
    split at h
    · cases h
    · cases h; exact .inr (.inl ⟨rfl, _, _, _, rfl, by omega, by omega, by omega⟩)
  | ctBuild =>
    simp only [bodyOf, ctBuildBody] at h
    split at h
    · cases h
    · cases h; exact .inr (.inr (.inl ⟨rfl, _, _, rfl, by omega, by omega, by omega, by omega⟩))
  | ctRead =>
    simp only [bodyOf, ctReadBody] at h
    split at h
    · cases h
    · split at h
      · cases h; exact .inr (.inr (.inr (.inl ⟨rfl, _, _, _, rfl⟩)))
      · cases h
  | ctReadUnchecked =>
    simp only [bodyOf, ctReadUncheckedBody] at h
    split at h
    · cases h
    · split at h
      · cases h; exact .inr (.inr (.inr (.inl ⟨rfl, _, _, _, rfl⟩)))
      · cases h; exact .inr (.inr (.inr (.inl ⟨rfl, _, _, false, rfl⟩)))
  | codeSample =>
    simp only [bodyOf, codeSampleBody] at h
    split at h
    · cases h
    · split at h
      · cases h
      · obtain ⟨hc, h⟩ := checkCount_ok h
        split at h
        · cases h
        · cases h; exact .inr (.inr (.inr (.inr ⟨rfl, _, _, _, rfl, hc⟩)))
  | codePhase =>
    simp only [bodyOf, codePhaseBody] at h
    split at h
    · cases h
    · split at h
      · cases h
      · cases h; exact .inr (.inr (.inr (.inl ⟨rfl, _, _, false, rfl⟩)))
  | carGen =>
    obtain ⟨hc, h⟩ := checkCount_ok h
    cases h; exact .inr (.inr (.inr (.inr ⟨rfl, _, _, false, rfl, hc⟩)))
  | carPhases =>
    obtain ⟨hc, h⟩ := checkCount_ok h
    cases h; exact .inr (.inr (.inr (.inr ⟨rfl, _, _, false, rfl, hc⟩)))
  | carLut =>
    obtain ⟨hc, h⟩ := checkCount_ok h
    cases h; exact .inr (.inr (.inr (.inr ⟨rfl, _, _, false, rfl, hc⟩)))
  | carEval => cases h; exact .inr (.inr (.inr (.inl ⟨rfl, _, _, false, rfl⟩)))
  | carRomRead =>
    simp only [bodyOf, carRomReadBody] at h
    split at h
    · cases h
    · cases h; exact .inr (.inr (.inr (.inl ⟨rfl, _, _, false, rfl⟩)))

/-- What the engine's step concludes: the command's body, or ILLEGAL_CMD (40_engine.md R126). -/
def engineBody (s : State) : Execution :=
  match decode s.cmd with
  | .ok i => bodyOf i s
  | .error _ => .error .illegalCmd

theorem engineStep_eq (s : State) : engineStep s = .next (s.conclude (engineBody s)) := by
  unfold engineStep engineBody
  cases decode s.cmd with
  | ok i => exact exec_eq i s
  | error e => rfl

/-- The state a step acts on: `s` with its oldest move, if it has one, taken. -/
def State.popMove (s : State) : State := { s with pending := s.pending.tail }

/-- Everything a step can be: a host read, a host write, a reset, the engine's completion of the running command,
or the turn of an idle engine. -/
theorem step_cases {s t : State} (h : step s = .next t) :
    (∃ addr rest, s.pending = .read addr :: rest ∧ t = hostRead addr s.popMove) ∨
    (∃ addr w rest, s.pending = .write addr w :: rest ∧ t = hostWrite addr w s.popMove) ∨
    (∃ rest, s.pending = .reset :: rest ∧ t = hostReset s.popMove) ∨
    ((s.pending = [] ∨ ∃ rest, s.pending = .engine :: rest) ∧ s.busy = true ∧
      t = s.popMove.conclude (engineBody s.popMove)) ∨
    ((s.pending = [] ∨ ∃ rest, s.pending = .engine :: rest) ∧ s.busy = false ∧ t = s.popMove) := by
  have hturn : ∀ u : State, u.busy = s.busy → u = s.popMove → engineTurn u = .next t →
      (s.busy = true ∧ t = s.popMove.conclude (engineBody s.popMove)) ∨ (s.busy = false ∧ t = s.popMove) := by
    intro u hb hu ht
    unfold engineTurn at ht
    split at ht
    · rw [engineStep_eq] at ht
      exact .inl ⟨by rw [← hb]; assumption, by cases ht; rw [hu]⟩
    · rename_i hbusy
      cases ht
      exact .inr ⟨by rw [← hb]; exact Bool.not_eq_true _ ▸ hbusy, hu⟩
  unfold step at h
  split at h
  · rename_i hp
    rcases hturn s rfl (by unfold State.popMove; rw [hp]; cases s; simp_all) h with h | h
    · exact .inr (.inr (.inr (.inl ⟨.inl hp, h⟩)))
    · exact .inr (.inr (.inr (.inr ⟨.inl hp, h⟩)))
  · rename_i m rest hp
    have hpop : ({ s with pending := rest } : State) = s.popMove := by unfold State.popMove; rw [hp]; rfl
    rw [hpop] at h
    cases m with
    | read addr => cases h; exact .inl ⟨addr, rest, hp, rfl⟩
    | write addr w => cases h; exact .inr (.inl ⟨addr, w, rest, hp, rfl⟩)
    | reset => cases h; exact .inr (.inr (.inl ⟨rest, hp, rfl⟩))
    | engine =>
      rcases hturn s.popMove rfl rfl h with h | h
      · exact .inr (.inr (.inr (.inl ⟨.inr ⟨rest, hp⟩, h⟩)))
      · exact .inr (.inr (.inr (.inr ⟨.inr ⟨rest, hp⟩, h⟩)))

end Sys2Proof.Machine
end

