-- ==== Sys2Proof/Laws/Commands.lean ====
section
/-! SUPPORT. What the shared operations under the commands do, each said once: completion and raising, the chip read,
the OUT writes, the count check, and the arithmetic the words are made with. -/

namespace Sys2Proof.Machine

/-! ## Ranges and words -/

/-- The ranges of a configuration as inequalities (00_scope.md R10, R11). -/
theorem Config_wf_ranges {c : Config} (h : c.wf = true) :
    c.q ≤ 16 ∧ c.a ≤ 14 ∧ 2 ≤ c.lMax ∧ c.lMax ≤ 16777215 ∧ 1 ≤ c.prnMax ∧ c.prnMax ≤ 65535 ∧
      1 ≤ c.bufDepth ∧ c.bufDepth ≤ 16384 := by
  simpa [Config.wf, and_assoc] using h

/-- A concatenation as a number: the high part is scaled by the width of the low part. -/
theorem append_toNat {m n : Nat} (x : BitVec m) (y : BitVec n) : (x ++ y).toNat = x.toNat * 2 ^ n + y.toNat := by
  rw [BitVec.toNat_append, ← Nat.shiftLeft_add_eq_or_of_lt y.isLt, Nat.shiftLeft_eq]

/-- Reducing mod L·2^32 and dropping the fraction is dropping the fraction and reducing mod L
(42_code_sampler.md R163). -/
theorem mod_then_div (p : Int) (len : Nat) (h : 0 < len) :
    (p % ((len : Int) * 2 ^ 32)) / ((2 ^ 32 : Nat) : Int) = (p / 2 ^ 32) % (len : Int) := by
  have h1 := Int.mul_ediv_add_emod p (2 ^ 32)
  have h2 := Int.mul_ediv_add_emod (p / 2 ^ 32) len
  have r0 := Int.emod_nonneg p (show (2 : Int) ^ 32 ≠ 0 by norm_num)
  have r1 := Int.emod_lt_of_pos p (show (0 : Int) < 2 ^ 32 by norm_num)
  have l0 : (0 : Int) < len := by exact_mod_cast h
  have q0 := Int.emod_nonneg (p / 2 ^ 32) (show (len : Int) ≠ 0 by omega)
  have q1 := Int.emod_lt_of_pos (p / 2 ^ 32) l0
  generalize p / 2 ^ 32 = q at *
  generalize p % 2 ^ 32 = r at *
  generalize q / (len : Int) = q' at *
  generalize q % (len : Int) = r' at *
  have hp : p = (2 ^ 32 * r' + r) + (len : Int) * 2 ^ 32 * q' := by rw [← h1, ← h2]; ring
  rw [hp, Int.add_mul_emod_self_left, Int.emod_eq_of_lt (by nlinarith) (by nlinarith)]
  norm_num
  omega

/-! ## Completion -/

theorem exec_of_ok {i : Instr} {s t : State} (h : bodyOf i s = .ok t) : exec i s = .next (t.complete .ok) := by
  rw [exec_eq, h]; rfl

theorem exec_of_error {i : Instr} {s : State} {e : StatusCode} (h : bodyOf i s = .error e) :
    exec i s = .next (s.complete e) := by
  rw [exec_eq, h]; rfl

theorem exec_next {i : Instr} {s t : State} (h : exec i s = .next t) : t = s.conclude (bodyOf i s) := by
  rw [exec_eq] at h; cases h; rfl

/-- Completing with a code and nothing written is a raise (60_exceptions.md R211). -/
theorem raised_complete (s : State) (e : StatusCode) : Raised s (s.complete e) e :=
  ⟨⟨rfl, rfl, rfl, rfl, rfl, rfl, rfl, rfl, rfl⟩, ⟨rfl, rfl⟩, ⟨rfl, rfl, rfl⟩, fun _ => rfl, fun _ => rfl, rfl⟩

/-- The engine's completion is a raise of some code other than OK, or the OK end of a command's body. -/
theorem engine_cases (s : State) :
    (∃ e, e ≠ .ok ∧ s.conclude (engineBody s) = s.complete e) ∨
    ∃ i u, decode s.cmd = .ok i ∧ bodyOf i s = .ok u ∧ s.conclude (engineBody s) = u.complete .ok := by
  unfold engineBody
  split
  · rename_i i hd
    cases hx : bodyOf i s with
    | ok u => exact .inr ⟨i, u, hd, hx, rfl⟩
    | error e =>
      refine .inl ⟨e, ?_, rfl⟩
      rintro rfl
      revert hx
      cases i <;> simp only [bodyOf, nopBody, ctWriteBody, ctBuildBody, ctReadBody, ctReadUncheckedBody,
        codeSampleBody, codePhaseBody, carGenBody, carPhasesBody, carLutBody, carEvalBody, carRomReadBody,
        checkCount] <;> (try split_ifs) <;> simp
  · exact .inl ⟨.illegalCmd, by simp, rfl⟩

/-! ## Shared parts of the bodies -/

theorem checkCount_le {s : State} {x : Execution} (h : opCount s.snap ≤ s.cfg.bufDepth) : checkCount s x = x :=
  if_neg (by omega)

theorem inTable_iff (s : State) (r c : Nat) :
    s.inTable r c = true ↔ r ≤ s.ctLen.toNat + 1 ∧ c < s.ctPrns.toNat := by
  simp [State.inTable]

theorem anyBelow_iff (n : Nat) (p : Nat → Bool) : anyBelow n p = true ↔ ∃ j, j < n ∧ p j = true := by
  induction n with
  | zero => simp [anyBelow]
  | succ n ih =>
    simp only [anyBelow, Bool.or_eq_true, ih]
    constructor
    · rintro (⟨j, h, hp⟩ | h)
      · exact ⟨j, by omega, hp⟩
      · exact ⟨n, by omega, h⟩
    · rintro ⟨j, h, hp⟩
      by_cases hj : j = n
      · exact .inr (hj ▸ hp)
      · exact .inl ⟨j, by omega, hp⟩

/-- Writing the results and recording an unwritten cell, or not, writes the two results and nothing else. -/
theorem wroteResults_complete (s : State) (r0 r1 : Word) (u : Bool) :
    WroteResults s (((s.setResults r0 r1).noteUnwritten u).complete .ok) r0 r1 := by
  unfold State.noteUnwritten
  split <;> exact ⟨⟨rfl, rfl, rfl, rfl, rfl, rfl, rfl, rfl, rfl⟩, rfl, rfl, ⟨rfl, rfl, rfl⟩, fun _ => rfl, fun _ => rfl⟩

/-- A written cell reads sign-extended and records nothing (41_code_table.md R144). -/
theorem readChip_written {s : State} {r c : Nat} {b : Byte} (h : s.cell r c = some b) :
    s.readChip r c = s.setResults (b.signExtend 32) 0 := by
  simp [State.readChip, State.chipAt, State.noteUnwritten, h]

/-- An unwritten cell reads as a free chip and is recorded (93_implementation_defined.md I3). -/
theorem readChip_unwritten {s : State} {r c : Nat} (h : s.cell r c = none) :
    s.readChip r c =
      (s.setResults ((Config.freeChip s.draws (cellKey r c)).signExtend 32) 0).noteUnwritten true := by
  simp [State.readChip, State.chipAt, h]

/-- Writing n OUT words and recording an unwritten cell, or not, writes those words and nothing else. -/
theorem wroteOuts_complete (s : State) (n : Nat) (f : Nat → Word) (u : Bool) :
    WroteOuts s (((s.putOuts n f).noteUnwritten u).complete .ok) n f := by
  unfold State.noteUnwritten
  split <;> exact ⟨⟨rfl, rfl, rfl, rfl, rfl, rfl, rfl, rfl, rfl⟩, ⟨rfl, rfl⟩, ⟨rfl, rfl, rfl⟩, fun _ => rfl,
    fun j hj => wordAt_writeOuts _ _ _ _ hj, fun a h => byteAt_writeOuts_other _ _ _ _ h⟩

end Sys2Proof.Machine
end

