-- ==== Sys2Proof/Laws/HostPort.lean ====
section
/-! SUPPORT. What each bus address names (20_memory.md R64), when a host read is a free draw (40_engine.md R124), and
what a step does on each move of the host. -/

namespace Sys2Proof.Machine

/-! ## The address map -/

/-- Below 0x10000 the map is that of the registers (20_memory.md R64). -/
theorem wordTarget_register (c : Config) {w : Nat} (h : w < 0x4000) : wordTarget c w = registerTarget w := by
  simp [wordTarget, Nat.not_le_of_lt h, Nat.not_le_of_lt (Nat.lt_trans h (show 0x4000 < 0x8000 by decide))]

/-- The words a target has (20_memory.md R64): what the map gives, read backwards. -/
def Target.Names (c : Config) (w : Nat) (t : Target) : Prop :=
  match t with
  | .id => w = 0x00
  | .cfg0 => w = 0x01
  | .cfg1 => w = 0x02
  | .cfg2 => w = 0x03
  | .status => w = 0x04
  | .ctrl => w = 0x05
  | .cmd => w = 0x06
  | .arg j => w = 0x08 + j.val
  | .result0 => w = 0x10
  | .result1 => w = 0x11
  | .ctLen => w = 0x12
  | .ctPrns => w = 0x13
  | .inBuf i => w = 0x4000 + i ∧ i < c.bufDepth ∧ i < 0x4000
  | .outBuf i => w = 0x8000 + i ∧ i < c.bufDepth ∧ i < 0x4000
  | .reserved => w = 0x07 ∨ 0x14 ≤ w

/-- Above CT_PRNS no register stands (20_memory.md R64). -/
theorem registerTarget_high {w : Nat} (h : 0x14 ≤ w) : registerTarget w = .reserved := by
  unfold registerTarget
  split <;> first | rfl | omega

/-- Every register word is one of its target's (20_memory.md R64). -/
theorem registerTarget_names (c : Config) (w : Nat) : (registerTarget w).Names c w := by
  rcases Nat.lt_or_ge w 0x14 with hw | hw
  · interval_cases w <;> first | exact rfl | exact .inl rfl
  · rw [registerTarget_high hw]
    exact .inr hw

/-- Every word of the map is one of its target's (20_memory.md R64). -/
theorem wordTarget_names (c : Config) (w : Nat) : (wordTarget c w).Names c w := by
  unfold wordTarget
  split
  · exact ⟨by omega, by omega, by omega⟩
  split
  · exact ⟨by omega, by omega, by omega⟩
  · exact registerTarget_names c w

/-- A target's name tells which words have it (20_memory.md R64). -/
theorem target_names {c : Config} {addr : BusAddr} {t : Target} (h : target c addr = t) :
    t.Names c (addr.toNat / 4) := h ▸ wordTarget_names c _

/-- An address below 0x10000 names a register or is reserved (20_memory.md R64). -/
theorem target_register (c : Config) {addr : BusAddr} {w : Nat} (h : addr.toNat / 4 = w) (hw : w < 0x4000) :
    target c addr = registerTarget w := by
  rw [target, h, wordTarget_register c hw]

theorem target_status (c : Config) {addr : BusAddr} (h : addr.toNat / 4 = 0x04) : target c addr = .status :=
  target_register c h (by decide)

theorem target_ctrl (c : Config) {addr : BusAddr} (h : addr.toNat / 4 = 0x05) : target c addr = .ctrl :=
  target_register c h (by decide)

theorem target_cmd (c : Config) {addr : BusAddr} (h : addr.toNat / 4 = 0x06) : target c addr = .cmd :=
  target_register c h (by decide)

theorem target_arg (c : Config) {addr : BusAddr} (j : Fin 8) (h : addr.toNat / 4 = 0x08 + j.val) :
    target c addr = .arg j := by
  rw [target_register c h (by omega)]
  fin_cases j <;> rfl

theorem target_result0 (c : Config) {addr : BusAddr} (h : addr.toNat / 4 = 0x10) : target c addr = .result0 :=
  target_register c h (by decide)

theorem target_result1 (c : Config) {addr : BusAddr} (h : addr.toNat / 4 = 0x11) : target c addr = .result1 :=
  target_register c h (by decide)

theorem target_ctLen (c : Config) {addr : BusAddr} (h : addr.toNat / 4 = 0x12) : target c addr = .ctLen :=
  target_register c h (by decide)

theorem target_ctPrns (c : Config) {addr : BusAddr} (h : addr.toNat / 4 = 0x13) : target c addr = .ctPrns :=
  target_register c h (by decide)

theorem target_inBuf (c : Config) {addr : BusAddr} {i : Nat} (h : addr.toNat / 4 = 0x4000 + i)
    (hi : i < c.bufDepth) (hr : i < 0x4000) : target c addr = .inBuf i := by
  rw [target, h, wordTarget, if_pos (by omega), Nat.add_sub_cancel_left]

theorem target_outBuf (c : Config) {addr : BusAddr} {i : Nat} (h : addr.toNat / 4 = 0x8000 + i)
    (hi : i < c.bufDepth) (hr : i < 0x4000) : target c addr = .outBuf i := by
  rw [target, h, wordTarget, if_neg (by omega), if_pos (by omega), Nat.add_sub_cancel_left]

/-- Outside the registers and the buffers an address is reserved (20_memory.md R65). -/
theorem target_reserved (c : Config) {addr : BusAddr} (h : addr.toNat / 4 = 0x07 ∨ 0x14 ≤ addr.toNat / 4)
    (hin : ¬(0x4000 ≤ addr.toNat / 4 ∧ addr.toNat / 4 < 0x8000 ∧ addr.toNat / 4 - 0x4000 < c.bufDepth))
    (hout : ¬(0x8000 ≤ addr.toNat / 4 ∧ addr.toNat / 4 < 0xC000 ∧ addr.toNat / 4 - 0x8000 < c.bufDepth)) :
    target c addr = .reserved := by
  rw [target, wordTarget, if_neg hin, if_neg hout]
  rcases h with h | h
  · rw [h]; rfl
  · exact registerTarget_high h

/-! ## The map read backwards -/

/-- CMD has one word (20_memory.md R64). -/
theorem target_cmd_inv {c : Config} {addr : BusAddr} (h : target c addr = .cmd) : addr.toNat / 4 = 0x06 :=
  target_names h

/-- STATUS has one word (20_memory.md R64). -/
theorem target_status_inv {c : Config} {addr : BusAddr} (h : target c addr = .status) : addr.toNat / 4 = 0x04 :=
  target_names h

/-- CTRL has one word (20_memory.md R64). -/
theorem target_ctrl_inv {c : Config} {addr : BusAddr} (h : target c addr = .ctrl) : addr.toNat / 4 = 0x05 :=
  target_names h

/-- ARG j has one word (20_memory.md R64). -/
theorem target_arg_inv {c : Config} {addr : BusAddr} {j : Fin 8} (h : target c addr = .arg j) :
    addr.toNat / 4 = 0x08 + j.val := target_names h

/-- `IN[i]` has one word, inside the buffer (20_memory.md R64). -/
theorem target_inBuf_inv {c : Config} {addr : BusAddr} {i : Nat} (h : target c addr = .inBuf i) :
    addr.toNat / 4 = 0x4000 + i ∧ i < c.bufDepth ∧ i < 0x4000 := target_names h

/-! ## The running command -/

theorem running_iff (s : State) (p : Instr → Bool) :
    s.running p = true ↔ s.busy = true ∧ ∃ i, decode s.cmd = .ok i ∧ p i = true := by
  unfold State.running
  cases decode s.cmd with
  | error e => simp
  | ok i => simp

theorem running_writesOut (s : State) :
    s.running writesOut = true ↔ s.busy = true ∧
      (decode s.cmd = .ok .codeSample ∨ decode s.cmd = .ok .carGen ∨ decode s.cmd = .ok .carPhases ∨
        decode s.cmd = .ok .carLut) := by
  unfold State.running
  cases decode s.cmd with
  | error e => simp
  | ok i => cases i <;> simp [writesOut]

theorem running_writesResult (s : State) :
    s.running writesResult = true ↔ s.busy = true ∧
      (decode s.cmd = .ok .ctRead ∨ decode s.cmd = .ok .ctReadUnchecked ∨ decode s.cmd = .ok .codePhase ∨
        decode s.cmd = .ok .carEval ∨ decode s.cmd = .ok .carRomRead) := by
  unfold State.running
  cases decode s.cmd with
  | error e => simp
  | ok i => cases i <;> simp [writesResult]

theorem running_carLut (s : State) :
    s.running (fun c => decide (c = .carLut)) = true ↔ s.busy = true ∧ decode s.cmd = .ok .carLut := by
  unfold State.running
  cases decode s.cmd with
  | error e => simp
  | ok i => simp

/-! ## A step on a move of the host -/

theorem step_read {s : State} {addr : BusAddr} {rest : List Move} (h : s.pending = .read addr :: rest) :
    step s = .next (hostRead addr { s with pending := rest }) := by
  simp only [step, h, runMove]

theorem step_write {s : State} {addr : BusAddr} {w : Word} {rest : List Move}
    (h : s.pending = .write addr w :: rest) :
    step s = .next (hostWrite addr w { s with pending := rest }) := by
  simp only [step, h, runMove]

theorem step_reset {s : State} {rest : List Move} (h : s.pending = .reset :: rest) :
    step s = .next (hostReset { s with pending := rest }) := by
  simp only [step, h, runMove]

/-- Everything a host write can do: change one register or one `IN` word, accept a command, note an overrun, or
nothing; the step number moves on. -/
theorem hostWrite_cases (addr : BusAddr) (w : Word) (s : State) :
    (target s.cfg addr = .status ∧ hostWrite addr w s = (s.writeStatus w).tick) ∨
    (target s.cfg addr = .ctrl ∧ hostWrite addr w s = (s.writeCtrl w).tick) ∨
    (target s.cfg addr = .cmd ∧ s.busy = false ∧ hostWrite addr w s = (s.accept w).tick) ∨
    (target s.cfg addr = .cmd ∧ s.busy = true ∧ hostWrite addr w s = State.tick { s with cmdOvr := true }) ∨
    (∃ j, target s.cfg addr = .arg j ∧ hostWrite addr w s = State.tick { s with args := s.args.set j w }) ∨
    (∃ i, target s.cfg addr = .inBuf i ∧ hostWrite addr w s = ((s.putIn i w).noteRace i).tick) ∨
    hostWrite addr w s = s.tick := by
  unfold hostWrite
  cases target s.cfg addr with
  | status => exact .inl ⟨rfl, rfl⟩
  | ctrl => exact .inr (.inl ⟨rfl, rfl⟩)
  | cmd =>
    cases hb : s.busy with
    | false => exact .inr (.inr (.inl ⟨rfl, rfl, by simp [State.writeTarget, State.issue, hb]⟩))
    | true => exact .inr (.inr (.inr (.inl ⟨rfl, rfl, by simp [State.writeTarget, State.issue, hb]⟩)))
  | arg j => exact .inr (.inr (.inr (.inr (.inl ⟨j, rfl, rfl⟩))))
  | inBuf i => exact .inr (.inr (.inr (.inr (.inr (.inl ⟨i, rfl, rfl⟩)))))
  | _ => exact .inr (.inr (.inr (.inr (.inr (.inr rfl)))))

end Sys2Proof.Machine
end

