-- ==== Sys2Proof/Laws/PerInstr.lean ====
section
/-! SUPPORT. Statements about every instruction as syntax, one lemma per constructor. -/

namespace Sys2Proof.Laws.Encoding

/-- A command is well formed, its word is legal (30_encoding.md R95), and the word decodes to it (R94). -/
def Statement (i : Instr) : Prop :=
  i.wf = true ∧ legalCommand (encode i) = true ∧ decode (encode i) = .ok i

theorem nop : Statement .nop := ⟨rfl, rfl, rfl⟩
theorem ctWrite : Statement .ctWrite := ⟨rfl, rfl, rfl⟩
theorem ctBuild : Statement .ctBuild := ⟨rfl, rfl, rfl⟩
theorem ctRead : Statement .ctRead := ⟨rfl, rfl, rfl⟩
theorem ctReadUnchecked : Statement .ctReadUnchecked := ⟨rfl, rfl, rfl⟩
theorem codeSample : Statement .codeSample := ⟨rfl, rfl, rfl⟩
theorem codePhase : Statement .codePhase := ⟨rfl, rfl, rfl⟩
theorem carGen : Statement .carGen := ⟨rfl, rfl, rfl⟩
theorem carPhases : Statement .carPhases := ⟨rfl, rfl, rfl⟩
theorem carLut : Statement .carLut := ⟨rfl, rfl, rfl⟩
theorem carEval : Statement .carEval := ⟨rfl, rfl, rfl⟩
theorem carRomRead : Statement .carRomRead := ⟨rfl, rfl, rfl⟩

end Sys2Proof.Laws.Encoding
end

