-- ==== Sys2Proof/Laws/Rom.lean ====
section
/-! SUPPORT. What the comparison behind the carrier ROM decides: how the real cosine of kπ/2^m compares with p/2^e
(43_carrier.md R180). -/

namespace Sys2Proof.Machine

open Real

/-- `o` says how `x` compares with `y`. -/
def Compares (o : Ordering) (x y : ℝ) : Prop :=
  match o with
  | .lt => x < y
  | .eq => x = y
  | .gt => y < x

theorem Compares.int (a b : Int) : Compares (compare a b) (a : ℝ) (b : ℝ) := by
  rcases lt_trichotomy a b with h | h | h
  · rw [compare_lt_iff_lt.mpr h]; exact Int.cast_lt.mpr h
  · rw [compare_eq_iff_eq.mpr h]; exact congrArg _ h
  · rw [compare_gt_iff_gt.mpr h]; exact Int.cast_lt.mpr h

/-- Comparing after division by a positive number. -/
theorem Compares.div {o : Ordering} {x y c : ℝ} (hc : 0 < c) (h : Compares o x y) : Compares o (x / c) (y / c) := by
  cases o with
  | lt => exact div_lt_div_of_pos_right h hc
  | eq => exact congrArg (· / c) h
  | gt => exact div_lt_div_of_pos_right h hc

/-- For values that are not negative, the squares compare as the values do. -/
theorem Compares.of_sq {o : Ordering} {x y : ℝ} (hx : 0 ≤ x) (hy : 0 ≤ y)
    (h : Compares o (2 * x ^ 2 - 1) (2 * y ^ 2 - 1)) : Compares o x y := by
  cases o with
  | lt => exact lt_of_pow_lt_pow_left₀ 2 hy (by simp only [Compares] at h; linarith)
  | eq => exact (pow_left_inj₀ hx hy two_ne_zero).mp (by simp only [Compares] at h; linarith)
  | gt => exact lt_of_pow_lt_pow_left₀ 2 hx (by simp only [Compares] at h; linarith)

theorem Compares.swap_neg {o : Ordering} {x y : ℝ} (h : Compares o (-x) (-y)) : Compares o.swap x y := by
  cases o with
  | lt => simpa [Compares] using h
  | eq => simpa [Compares] using h
  | gt => simpa [Compares] using h

/-- The doubled threshold: (2p² − 2^(2e)) / 2^(2e) = 2·(p/2^e)² − 1. -/
theorem doubled_threshold (p : Int) (e : Nat) :
    ((2 * p * p - 2 ^ (2 * e) : Int) : ℝ) / 2 ^ (2 * e) = 2 * ((p : ℝ) / 2 ^ e) ^ 2 - 1 := by
  have h : (2 : ℝ) ^ (2 * e) = (2 ^ e) ^ 2 := by rw [mul_comm, pow_mul]
  push_cast
  rw [h]
  field_simp

/-- `cosCompare` decides the comparison exactly (43_carrier.md R180). -/
theorem cosCompare_spec (m k : Nat) (p : Int) (e : Nat) (hk : k ≤ 2 ^ m) :
    Compares (cosCompare m k p e) (cos (k * π / 2 ^ m)) ((p : ℝ) / 2 ^ e) := by
  induction m generalizing k p e with
  | zero =>
    have he : (0 : ℝ) < 2 ^ e := by positivity
    have hcos : cos (k * π / 2 ^ 0) = ((if k = 0 then (2 : Int) ^ e else -(2 : Int) ^ e : Int) : ℝ) / 2 ^ e := by
      have : k = 0 ∨ k = 1 := by simp at hk; omega
      rcases this with rfl | rfl
      · simp
      · simp
    rw [hcos]
    exact (Compares.int _ _).div he
  | succ m ih =>
    have hm : (0 : ℝ) < 2 ^ m := by positivity
    have he : (0 : ℝ) < 2 ^ e := by positivity
    have hpi := pi_pos
    have hdbl : cos (2 * (k * π / 2 ^ (m + 1))) = 2 * cos (k * π / 2 ^ (m + 1)) ^ 2 - 1 := cos_two_mul _
    simp only [cosCompare]
    split
    · rename_i hle
      have hle' : (k : ℝ) ≤ 2 ^ m := by exact_mod_cast hle
      have hpos : 0 ≤ cos (k * π / 2 ^ (m + 1)) := by
        refine cos_nonneg_of_neg_pi_div_two_le_of_le ?_ ?_
        · have : 0 ≤ k * π / 2 ^ (m + 1) := by positivity
          linarith
        · rw [div_le_div_iff₀ (by positivity) (by norm_num), pow_succ]
          nlinarith
      split
      · rename_i hp
        have hp' : (p : ℝ) < 0 := by exact_mod_cast hp
        exact lt_of_lt_of_le (div_neg_of_neg_of_pos hp' he) hpos
      · rename_i hp
        have hp' : (0 : ℝ) ≤ p := by exact_mod_cast (not_lt.mp hp)
        refine Compares.of_sq hpos (by positivity) ?_
        rw [← hdbl, ← doubled_threshold]
        have := ih k (2 * p * p - 2 ^ (2 * e)) (2 * e) hle
        rwa [show 2 * (k * π / 2 ^ (m + 1)) = k * π / 2 ^ m by rw [pow_succ]; field_simp]
    · rename_i hgt
      have hgt' : (2 : ℝ) ^ m < k := by exact_mod_cast (not_le.mp hgt)
      have hk' : (k : ℝ) ≤ 2 ^ (m + 1) := by exact_mod_cast hk
      have hneg : cos (k * π / 2 ^ (m + 1)) < 0 := by
        refine cos_neg_of_pi_div_two_lt_of_lt ?_ ?_
        · rw [div_lt_div_iff₀ (by norm_num) (by positivity), pow_succ]
          nlinarith
        · have : k * π / 2 ^ (m + 1) ≤ π := by
            rw [div_le_iff₀ (by positivity)]
            nlinarith
          linarith
      split
      · rename_i hp
        have hp' : (0 : ℝ) ≤ p := by exact_mod_cast hp
        exact lt_of_lt_of_le hneg (by positivity)
      · rename_i hp
        have hp' : (p : ℝ) < 0 := by exact_mod_cast (not_le.mp hp)
        refine Compares.swap_neg (Compares.of_sq (by linarith) ?_ ?_)
        · have := div_neg_of_neg_of_pos hp' he
          linarith
        · rw [neg_sq, neg_sq, ← hdbl, ← doubled_threshold]
          have := ih (2 ^ (m + 1) - k) (2 * p * p - 2 ^ (2 * e)) (2 * e) (by
            rw [pow_succ] at hk ⊢; omega)
          have hang : cos (2 * (k * π / 2 ^ (m + 1))) = cos (((2 ^ (m + 1) - k : Nat) : ℝ) * π / 2 ^ m) := by
            rw [← cos_two_pi_sub]
            congr 1
            rw [Nat.cast_sub hk]
            push_cast
            rw [pow_succ]
            field_simp
          rw [hang]
          exact this

/-- The search stays below its bound. -/
theorem romSearch_lt (q a k b acc : Nat) : romSearch q a k b acc < acc + 2 ^ b := by
  induction b generalizing acc with
  | zero => simp [romSearch]
  | succ b ih =>
    unfold romSearch
    have h1 := ih acc
    have h2 := ih (acc + 2 ^ b)
    rw [pow_succ]
    split <;> omega

/-- The search finds the integer whose half-open unit interval holds the scaled cosine, given that it starts below it
and that it reaches far enough. -/
theorem romSearch_spec (q a k : Nat) (hk : k ≤ 2 ^ (q + 1)) (b acc : Nat)
    (hlo : acc = 0 ∨ (acc : ℝ) - 1 / 2 ≤ cos (k * π / 2 ^ (q + 1)) * 2 ^ a)
    (hhi : cos (k * π / 2 ^ (q + 1)) * 2 ^ a < (acc : ℝ) + 2 ^ b - 1 / 2) :
    (romSearch q a k b acc = 0 ∨ (romSearch q a k b acc : ℝ) - 1 / 2 ≤ cos (k * π / 2 ^ (q + 1)) * 2 ^ a) ∧
      cos (k * π / 2 ^ (q + 1)) * 2 ^ a < (romSearch q a k b acc : ℝ) + 1 / 2 := by
  induction b generalizing acc with
  | zero => exact ⟨hlo, by simp only [romSearch]; linarith⟩
  | succ b ih =>
    simp only [romSearch]
    have hc := cosCompare_spec (q + 1) k (2 * ((acc + 2 ^ b : Nat) : Int) - 1) (a + 1) hk
    have hthr : (((2 * ((acc + 2 ^ b : Nat) : Int) - 1 : Int)) : ℝ) / 2 ^ (a + 1) * 2 ^ a =
        (acc : ℝ) + 2 ^ b - 1 / 2 := by
      push_cast; rw [pow_succ]; field_simp
    have ha : (0 : ℝ) < 2 ^ a := by positivity
    split
    · rename_i h
      rw [h] at hc
      simp only [Compares] at hc
      have := mul_lt_mul_of_pos_right hc ha
      rw [hthr] at this
      exact ih acc hlo this
    · rename_i h
      have hge : (((2 * ((acc + 2 ^ b : Nat) : Int) - 1 : Int)) : ℝ) / 2 ^ (a + 1) ≤ cos (k * π / 2 ^ (q + 1)) := by
        cases ho : cosCompare (q + 1) k (2 * ((acc + 2 ^ b : Nat) : Int) - 1) (a + 1) with
        | lt => exact absurd ho h
        | eq => rw [ho] at hc; exact le_of_eq hc.symm
        | gt => rw [ho] at hc; exact le_of_lt hc
      have := mul_le_mul_of_nonneg_right hge (le_of_lt ha)
      rw [hthr] at this
      refine ih (acc + 2 ^ b) (.inr (by push_cast; exact this)) ?_
      push_cast
      rw [pow_succ 2 b] at hhi
      linarith

end Sys2Proof.Machine
end

