-- ==== Sys2Proof/Tests/Slice0.lean ====
section
/-! SUPPORT. Tests. Every expected value comes from spec/95_test_vectors.md (the vector is named) or is computed by hand
from the rule named; every witness names the statement whose hypotheses it meets. -/

namespace Sys2Proof.Tests

open Sys2Proof Sys2Proof.Machine

/-! ## Small states -/

/-- REF-S right after reset. -/
def idleS : State := State.resetWith Config.refS

/-- Table 5 of the vectors: chips 1, −1, 1, 1, 1 in column 0, built (95_test_vectors.md, Conventions). -/
def table5 : State :=
  { idleS with
    table := [(cellKey 0 0, 1), (cellKey 1 0, 1), (cellKey 2 0, 0xFF), (cellKey 3 0, 1), (cellKey 4 0, 1),
      (cellKey 5 0, 1), (cellKey 6 0, 1)]
    tableValid := true
    ctLen := 5
    ctPrns := 1 }

/-- Eight argument words. -/
def argsOf (a0 a1 a2 a3 a4 a5 a6 : Word) : Args :=
  { a0 := a0, a1 := a1, a2 := a2, a3 := a3, a4 := a4, a5 := a5, a6 := a6, a7 := 0 }

/-- `s` with command `i` running on the arguments `x`. -/
def busyWith (s : State) (i : Instr) (x : Args) : State := State.accept { s with args := x } (encode i)

/-- `s` with one move to come. -/
def before (m : Move) (s : State) : State := { s with pending := [m] }

/-- The state one step leads to; a stop keeps `s`. -/
def after (s : State) : State :=
  match step s with
  | .next t => t
  | .fault _ => s
  | .refused _ => s

/-- STATUS and the two results after the command `i` on arguments `x`. -/
def results (s : State) (i : Instr) (x : Args) : Word × Word × Word :=
  ((after (busyWith s i x)).statusWord, (after (busyWith s i x)).result0, (after (busyWith s i x)).result1)

/-- STATUS and OUT[j] after the command `i` on arguments `x`. -/
def output (s : State) (i : Instr) (x : Args) (j : Nat) : Word × Option Word :=
  ((after (busyWith s i x)).statusWord, Memory.wordAt (after (busyWith s i x)).mem (outAddr j))

/-! ## WellFormed: one ill-formed configuration for each check, and illegal words -/

theorem test_refS_wf : Config.refS.wf = true := by decide
theorem test_refM_wf : Config.refM.wf = true := by decide
theorem test_wf_refuses_q : ({ Config.refS with q := 17 } : Config).wf = false := by decide
theorem test_wf_refuses_a : ({ Config.refS with a := 15 } : Config).wf = false := by decide
theorem test_wf_refuses_lMax_low : ({ Config.refS with lMax := 1 } : Config).wf = false := by decide
theorem test_wf_refuses_lMax_high : ({ Config.refS with lMax := 16777216 } : Config).wf = false := by decide
theorem test_wf_refuses_prnMax_low : ({ Config.refS with prnMax := 0 } : Config).wf = false := by decide
theorem test_wf_refuses_prnMax_high : ({ Config.refS with prnMax := 65536 } : Config).wf = false := by decide
theorem test_wf_refuses_bufDepth_low : ({ Config.refS with bufDepth := 0 } : Config).wf = false := by decide
theorem test_wf_refuses_bufDepth_high : ({ Config.refS with bufDepth := 16385 } : Config).wf = false := by decide

/-- Illegal words: V-ENG-3 to V-ENG-6. -/
theorem test_wf_refuses_words :
    legalCommand 0x00000005#32 = false ∧ legalCommand 0x0000000F#32 = false ∧ legalCommand 0x00000012#32 = false ∧
    legalCommand 0x0000001F#32 = false ∧ legalCommand 0x00000025#32 = false ∧ legalCommand 0x000000FF#32 = false ∧
    legalCommand 0x00000100#32 = false ∧ legalCommand 0x80000010#32 = false := by decide

/-- Memory.wf refuses a list out of order and a list with a number twice. -/
theorem test_wf_refuses_memory :
    ¬ Memory.wf [(5, 1), (4, 1)] ∧ ¬ Memory.wf [(5, 1), (5, 2)] ∧ Memory.wf [(4, 1), (5, 2)] := by decide

/-! ## Decode: each word written out bit by bit from 30_encoding.md R90 and R94 (RSV 24 bits, OPC 8 bits) -/

theorem test_decode_nop : decode (0b000000000000000000000000#24 ++ 0b00000000#8) = .ok .nop := by decide
theorem test_decode_ctWrite : decode (0b000000000000000000000000#24 ++ 0b00000001#8) = .ok .ctWrite := by decide
theorem test_decode_ctBuild : decode (0b000000000000000000000000#24 ++ 0b00000010#8) = .ok .ctBuild := by decide
theorem test_decode_ctRead : decode (0b000000000000000000000000#24 ++ 0b00000011#8) = .ok .ctRead := by decide
theorem test_decode_ctReadUnchecked :
    decode (0b000000000000000000000000#24 ++ 0b00000100#8) = .ok .ctReadUnchecked := by decide
theorem test_decode_codeSample : decode (0b000000000000000000000000#24 ++ 0b00010000#8) = .ok .codeSample := by decide
theorem test_decode_codePhase : decode (0b000000000000000000000000#24 ++ 0b00010001#8) = .ok .codePhase := by decide
theorem test_decode_carGen : decode (0b000000000000000000000000#24 ++ 0b00100000#8) = .ok .carGen := by decide
theorem test_decode_carPhases : decode (0b000000000000000000000000#24 ++ 0b00100001#8) = .ok .carPhases := by decide
theorem test_decode_carLut : decode (0b000000000000000000000000#24 ++ 0b00100010#8) = .ok .carLut := by decide
theorem test_decode_carEval : decode (0b000000000000000000000000#24 ++ 0b00100011#8) = .ok .carEval := by decide
theorem test_decode_carRomRead : decode (0b000000000000000000000000#24 ++ 0b00100100#8) = .ok .carRomRead := by decide

/-- V-ENG-5: OPC 0 with RSV ≠ 0 is no NOP; V-ENG-3: opcode 5 is not in the map. -/
theorem test_decode_rejects : decode 0x00000100#32 = .error .reservedBits ∧
    decode 0x00000005#32 = .error .unknownOpcode ∧ decode 0x80000010#32 = .error .reservedBits := by decide

/-- A table row's word, read as opcode_table.json numbers it. -/
theorem test_decodeTableWord : decodeTableWord 32 0x24 = some .carRomRead ∧ decodeTableWord 32 0x25 = none ∧
    decodeTableWord 8 0x10 = some .codeSample := by decide

/-! ## Commands -/

/-- V-ENG-1. -/
theorem test_nop : results idleS .nop Args.zero = (0x00000002, 0, 0) := by decide

/-- V-ENG-3: the word 0x00000005 raises ILLEGAL_CMD. -/
theorem test_illegal : (after (idleS.accept 0x00000005)).statusWord = 0x00000102 := by decide

/-- V-CT-4: only A[2][7:0] is used. -/
theorem test_ctWrite : (after (busyWith idleS .ctWrite (argsOf 1 3 0x12345600 0 0 0 0))).cell 2 3 = some 0 ∧
    (after (busyWith idleS .ctWrite (argsOf 1 3 0x12345600 0 0 0 0))).statusWord = 0x00000002 := by decide

/-- V-CT-5: i = L_MAX is out of range. -/
theorem test_ctWrite_range : (after (busyWith idleS .ctWrite (argsOf 16 0 1 0 0 0 0))).statusWord = 0x00000402 ∧
    (after (busyWith idleS .ctWrite (argsOf 16 0 1 0 0 0 0))).table = [] := by decide

/-- W9: row 0 is a copy of row L, row L + 1 a copy of row 1 (chips 1, −1, L = 2). -/
theorem test_ctBuild :
    let t := after (busyWith { idleS with table := [(cellKey 1 0, 1), (cellKey 2 0, 0xFF)] } .ctBuild
      (argsOf 2 1 0 0 0 0 0))
    t.cell 0 0 = some 0xFF ∧ t.cell 3 0 = some 1 ∧ t.statusWord = 0x00000006 ∧ t.ctLen = 2 := by decide

/-- V-CT-7: the shape (1, 1) is rejected. -/
theorem test_ctBuild_shape : (after (busyWith idleS .ctBuild (argsOf 1 1 0 0 0 0 0))).statusWord = 0x00000202 ∧
    (after (busyWith idleS .ctBuild (argsOf 1 1 0 0 0 0 0))).ctLen = 0 := by decide

/-- W3: row 2 of table 5 reads −1, sign-extended. -/
theorem test_ctRead : results table5 .ctRead (argsOf 2 0 0 0 0 0 0) = (0x00000006, 0xFFFFFFFF, 0) := by decide

/-- V-CT-14: row L + 2 is out of range. -/
theorem test_ctRead_range : results table5 .ctRead (argsOf 7 0 0 0 0 0 0) = (0x00000406, 0, 0) := by decide

/-- V-CT-15. -/
theorem test_ctReadUnchecked : results table5 .ctReadUnchecked (argsOf 0 0 0 0 0 0 0) = (0x00000006, 1, 0) := by decide

/-- V-CT-16: out of range the command completes OK, and RESULT1 is 0. -/
theorem test_ctReadUnchecked_range : (results table5 .ctReadUnchecked (argsOf 9 0 0 0 0 0 0)).1 = 0x00000006 ∧
    (results table5 .ctReadUnchecked (argsOf 9 0 0 0 0 0 0)).2.2 = 0 := by decide

/-- V-CT-12: an unwritten cell completes OK and is recorded. -/
theorem test_unwritten : (after (busyWith { table5 with table := [] } .ctRead (argsOf 3 0 0 0 0 0 0))).statusWord =
      0x00000006 ∧
    (after (busyWith { table5 with table := [] } .ctRead (argsOf 3 0 0 0 0 0 0))).fault = some .unwrittenCell := by
  decide

/-- V-CS-3: ph0 = −0.5 chips reads the last chip first, the second chip third. -/
theorem test_codeSample :
    output table5 .codeSample (argsOf 0 3 0 1 0x80000000 0xFFFFFFFF 0) 0 = (0x00000006, some 1) ∧
    output table5 .codeSample (argsOf 0 3 0 1 0x80000000 0xFFFFFFFF 0) 2 = (0x00000006, some 0xFFFFFFFF) := by decide

/-- V-CS-18: INVALID_PARAMETER comes before OUT_OF_RANGE, and nothing is written. -/
theorem test_codeSample_order : output table5 .codeSample (argsOf 0 1 0 0 0 0 1) 0 = (0x00000306, none) := by decide

/-- V-CP-10: L = 3, ph0 = −1.5 chips. -/
theorem test_codePhase :
    results idleS .codePhase (argsOf 0 3 1 0 0x80000000 0xFFFFFFFE 0) = (0x00000002, 0x80000000, 0xFFFFFFFE) := by
  decide

/-- V-CP-15: the extreme operands. -/
theorem test_codePhase_extreme :
    results idleS .codePhase (argsOf 0x80000000 0xFFFFFFFF 0xFFFFFFFF 0xFFFFFFFF 0xFFFFFFFF 0x7FFFFFFF 0) =
      (0x00000002, 0x7FFFFFFF, 0x00000000) := by decide

/-- V-CAR-4, samples 0 and 3: negative frequency, negative n0. -/
theorem test_carGen :
    output idleS .carGen (argsOf 0xFFFFFFFE 4 0xF0000000 0 0x08000000 0 0) 0 = (0x00000002, some 0x00070003) ∧
    output idleS .carGen (argsOf 0xFFFFFFFE 4 0xF0000000 0 0x08000000 0 0) 3 = (0x00000002, some 0x00000008) := by
  decide

/-- V-CAR-11: a count over BUF_DEPTH. -/
theorem test_carGen_count : output idleS .carGen (argsOf 0 17 1 0 0 0 0) 0 = (0x00000302, none) := by decide

/-- V-CAR-13, sample 2: n passes 2^31 and does not wrap. -/
theorem test_carPhases :
    output idleS .carPhases (argsOf 0x7FFFFFFF 3 0x40000000 0 0 0 0) 2 = (0x00000002, some 0x40000000) := by decide

/-- V-CAR-15, sample 1. -/
theorem test_carPhases_negative :
    output idleS .carPhases (argsOf 3 2 0xFFFFFFFF 0 5 0 0) 1 = (0x00000002, some 0x00000001) := by decide

/-- V-CAR-17. -/
theorem test_carLut :
    output ((idleS.putIn 0 0x50000000).putIn 1 0xA0000000) .carLut (argsOf 0 2 0 0 0 0 0) 0 =
      (0x00000002, some 0x0007FFFD) ∧
    output ((idleS.putIn 0 0x50000000).putIn 1 0xA0000000) .carLut (argsOf 0 2 0 0 0 0 0) 1 =
      (0x00000002, some 0xFFFAFFFA) := by decide

/-- The fold rows of REF-S at a tie, at a residual that rounds up to 2^Q, and on a boundary. -/
theorem test_carEval :
    results idleS .carEval (argsOf 0 0 0 0 0x08000000 0 0) = (0x00000002, 0x00030007, 0x00000001) ∧
    results idleS .carEval (argsOf 0 0 0 0 0xFFFFFFFF 0 0) = (0x00000002, 0x00000008, 0x00F00004) ∧
    results idleS .carEval (argsOf 0 0 0 0 0xC0000000 0 0) = (0x00000002, 0xFFF80000, 0x00E00004) := by decide

/-- The fold rows of REF-M. -/
theorem test_carEval_refM :
    results (State.resetWith Config.refM) .carEval (argsOf 0 0 0 0 0x50000000 0 0) =
      (0x00000002, 0x0076FFCF, 0x00500004) := by decide

/-- V-ROM-2 and V-ROM-4. -/
theorem test_carRomRead : results idleS .carRomRead (argsOf 1 0 0 0 0 0 0) = (0x00000002, 0x00030007, 0) ∧
    results idleS .carRomRead (argsOf 5 0 0 0 0 0 0) = (0x00000402, 0, 0) := by decide

/-- 43_carrier.md R181: the ROM of REF-S. -/
theorem test_rom_refS : (List.range 5).map (romCos 2 3) = [8, 7, 6, 3, 0] ∧
    (List.range 5).map (romSin 2 3) = [0, 3, 6, 7, 8] := by decide

/-- 43_carrier.md R181: the ROM of REF-M. -/
theorem test_rom_refM : (List.range 17).map (romCos 4 7) =
    [128, 127, 126, 122, 118, 113, 106, 99, 91, 81, 71, 60, 49, 37, 25, 13, 0] := by decide

/-- W7, the tie row of REF-S: the mirror of 0x08000000 lands one table step away. -/
theorem test_carrier_tie : carrierPair Config.refS 0x08000000 = (7, 3) ∧
    carrierPair Config.refS (0x80000000#32 - 0x08000000#32) = (-8, 0) := by decide

/-! ## The host's side -/

/-- ID reads 0x524E4301 (10_state.md R24); CFG0 of REF-S reads 0x00000302 (R25). -/
theorem test_identity : (after (before (.read 0x00000) idleS)).rdata = 0x524E4301 ∧
    (after (before (.read 0x00004) idleS)).rdata = 0x00000302 := by decide

/-- V-ENG-2: with IRQ_EN = 1 a NOP raises irq; writing 2 to STATUS clears it. -/
theorem test_irq :
    let t := after (busyWith { idleS with irqEn := true } .nop Args.zero)
    t.irq = true ∧ (after (before (.write 0x00010 2) t)).irq = false ∧
      (after (before (.write 0x00010 2) t)).statusWord = 0 := by decide

/-- While a command runs a CMD write is dropped and sets CMD_OVR (40_engine.md R123). -/
theorem test_overrun : (after (before (.write 0x00018 2) (busyWith table5 .nop Args.zero))).statusWord = 0x0000000D ∧
    (after (before (.write 0x00018 2) (busyWith table5 .nop Args.zero))).cmd = 0 := by decide

/-- The step that withFetchWord prepares runs the word, first thing after reset. -/
theorem test_withFetchWord : (after (State.reset.withFetchWord 32 0x00)).statusWord = 0x00000002 ∧
    (after (State.reset.withFetchWord 32 0x05)).statusWord = 0x00000102 := by decide

/-! ## Witnesses: for every statement with hypotheses, a state and operands that meet them, clause by clause, at the
ends of the ranges -/

/-- A step of `s` answers the state `after s`. -/
theorem step_after (s : State) (h : ∃ t, step s = .next t) : step s = .next (after s) := by
  obtain ⟨t, ht⟩ := h
  simp only [after, ht]

theorem test_witness_IllegalWordsAreRejectedByName :
    (0x00000100#32).toNat / 256 ≠ 0 ∧ (0xFFFFFFFF#32).toNat / 256 ≠ 0 ∧
    ((0x000000FF#32).toNat / 256 = 0 ∧ legalCommand 0x000000FF#32 = false) ∧ legalCommand 0x00000024#32 = true := by
  decide

theorem test_witness_StepRunsTheDecodedCommand :
    (busyWith idleS .carRomRead Args.zero).busy = true ∧
    decode (busyWith idleS .carRomRead Args.zero).cmd = .ok .carRomRead ∧
    (busyWith idleS .carRomRead Args.zero).pending = [] ∧
    (before .engine (busyWith idleS .nop Args.zero)).busy = true ∧
    decode (before .engine (busyWith idleS .nop Args.zero)).cmd = .ok .nop ∧
    (before .engine (busyWith idleS .nop Args.zero)).pending = [.engine] := by decide

/-- Either form of the engine's turn. -/
theorem test_witness_IllegalCommandRaises :
    (idleS.accept 0x00000005).busy = true ∧ legalCommand (idleS.accept 0x00000005).cmd = false ∧
    (idleS.accept 0x00000005).pending = [] ∧
    (before .engine (idleS.accept 0x00000005)).busy = true ∧
    legalCommand (before .engine (idleS.accept 0x00000005)).cmd = false ∧
    (before .engine (idleS.accept 0x00000005)).pending = [.engine] := by decide

theorem test_witness_IdleEngineTurnChangesNothing :
    idleS.busy = false ∧ idleS.pending = [] ∧ (before .engine idleS).busy = false ∧
    (before .engine idleS).pending = [.engine] := by decide

/-- Both ends of the word's addresses; a word that clears TABLE_VALID, one that does not, and an illegal one. -/
theorem test_witness_CommandWriteIsAccepted :
    (0x00018 : BusAddr).toNat / 4 = 0x00018 / 4 ∧ (0x0001B : BusAddr).toNat / 4 = 0x00018 / 4 ∧
    (before (.write 0x0001B 2) table5).pending = [.write 0x0001B 2] ∧ (before (.write 0x0001B 2) table5).busy = false ∧
    ((2 : Word) = 0x00000001#32 ∨ (2 : Word) = 0x00000002#32) ∧
    ¬((0x10 : Word) = 0x00000001#32 ∨ (0x10 : Word) = 0x00000002#32) := by decide

theorem test_witness_CommandWriteWhileBusyIsDropped :
    (before (.write 0x00018 2) (busyWith table5 .nop Args.zero)).pending = [.write 0x00018 2] ∧
    (before (.write 0x00018 2) (busyWith table5 .nop Args.zero)).busy = true := by decide

theorem test_witness_StatusWriteClearsOnlyDoneAndOverrun :
    (0x00010 : BusAddr).toNat / 4 = 0x00010 / 4 ∧ (0x00013 : BusAddr).toNat / 4 = 0x00010 / 4 ∧
    (before (.write 0x00013 0xA) idleS).pending = [.write 0x00013 0xA] := by decide

theorem test_witness_ControlWriteAndRead :
    (0x00014 : BusAddr).toNat / 4 = 0x00014 / 4 ∧ (0x00017 : BusAddr).toNat / 4 = 0x00014 / 4 ∧
    (before (.write 0x00014 0xFFFFFFFF) idleS).pending = [.write 0x00014 0xFFFFFFFF] ∧
    (before (.read 0x00017) idleS).pending = [.read 0x00017] ∧ (before .reset idleS).pending = [.reset] := by decide

theorem test_witness_ArgumentWriteAndRead :
    (0x00020 : BusAddr).toNat / 4 = (0x00020 + 4 * (0 : Fin 8).val) / 4 ∧
    (0x0003F : BusAddr).toNat / 4 = (0x00020 + 4 * (7 : Fin 8).val) / 4 ∧
    (before (.write 0x0003C 5) idleS).pending = [.write 0x0003C 5] ∧
    (before (.read 0x00020) idleS).pending = [.read 0x00020] := by decide

theorem test_witness_HostReadsHaveNoSideEffect : (before (.read 0x3FFFF) idleS).pending = [.read 0x3FFFF] := by decide

/-- The first and the last address of every hole and of the read-only ranges, for BUF_DEPTH = 16. -/
theorem test_witness_ReservedAndReadOnlyAddresses :
    idleS.cfg.bufDepth ≤ 16384 ∧
    (0x0001F : BusAddr).toNat / 4 * 4 = 0x0001C ∧
    (0x00050 ≤ (0x00050 : BusAddr).toNat / 4 * 4 ∧ (0x0FFFF : BusAddr).toNat / 4 * 4 < 0x10000) ∧
    (0x10000 + 4 * idleS.cfg.bufDepth ≤ (0x10040 : BusAddr).toNat / 4 * 4 ∧
      (0x1FFFF : BusAddr).toNat / 4 * 4 < 0x20000) ∧
    (0x20000 + 4 * idleS.cfg.bufDepth ≤ (0x20040 : BusAddr).toNat / 4 * 4 ∧
      (0x2FFFF : BusAddr).toNat / 4 * 4 < 0x30000) ∧
    (0x30000 ≤ (0x30000 : BusAddr).toNat / 4 * 4 ∧ 0x30000 ≤ (0x3FFFF : BusAddr).toNat / 4 * 4) ∧
    (0x00018 : BusAddr).toNat / 4 * 4 = 0x00018 ∧
    (0x00040 ≤ (0x00040 : BusAddr).toNat / 4 * 4 ∧ (0x0004F : BusAddr).toNat / 4 * 4 ≤ 0x0004C) ∧
    (0x20000 ≤ (0x20000 : BusAddr).toNat / 4 * 4 ∧
      (0x2003F : BusAddr).toNat / 4 * 4 < 0x20000 + 4 * idleS.cfg.bufDepth) ∧
    (before (.read 0x0001C) idleS).pending = [.read 0x0001C] ∧
    (before (.write 0x2003C 1) idleS).pending = [.write 0x2003C 1] := by decide

theorem test_witness_IdentityAndConfigurationAreConstant :
    idleS.cfg.wf = true ∧ (before (.read 0x00000) idleS).pending = [.read 0x00000] ∧
    (0x00000 : BusAddr).toNat / 4 = 0 ∧ (0x00004 : BusAddr).toNat / 4 = 1 ∧ (0x00008 : BusAddr).toNat / 4 = 2 ∧
    (0x0000F : BusAddr).toNat / 4 = 3 ∧ (before (.write 0x0000C 1) idleS).pending = [.write 0x0000C 1] := by decide

/-- The three words, and a state with the greatest status code. -/
theorem test_witness_StatusAndShapeReadBack :
    (before (.read 0x00010) table5).pending = [.read 0x00010] ∧ (0x00010 : BusAddr).toNat / 4 = 0x00010 / 4 ∧
    (after (busyWith idleS .ctRead Args.zero)).err = .tableInvalid ∧
    (0x00048 : BusAddr).toNat / 4 = 0x00048 / 4 ∧ (0x0004F : BusAddr).toNat / 4 = 0x0004C / 4 := by decide

/-- OUT[15] while a command with count 16 runs (a draw), and with no command running (exact). -/
theorem test_witness_OutReadsExactExceptUnderAnOutCommand :
    (0x2003C : BusAddr).toNat / 4 = (0x20000 + 4 * 15) / 4 ∧ 15 < idleS.cfg.bufDepth ∧ idleS.cfg.bufDepth ≤ 16384 ∧
    (before (.read 0x2003C) (busyWith idleS .carGen (argsOf 0 16 1 0 0 0 0))).pending = [.read 0x2003C] ∧
    (busyWith idleS .carGen (argsOf 0 16 1 0 0 0 0)).busy = true ∧
    15 < (busyWith idleS .carGen (argsOf 0 16 1 0 0 0 0)).snap.a1.toNat ∧
    decode (busyWith idleS .carGen (argsOf 0 16 1 0 0 0 0)).cmd = .ok .carGen ∧
    ¬(idleS.busy = true) := by decide

theorem test_witness_ResultReadsExactExceptUnderAResultCommand :
    (before (.read 0x00040) (busyWith idleS .codePhase Args.zero)).pending = [.read 0x00040] ∧
    (busyWith idleS .codePhase Args.zero).busy = true ∧
    decode (busyWith idleS .codePhase Args.zero).cmd = .ok .codePhase ∧ ¬(idleS.busy = true) ∧
    (0x00040 : BusAddr).toNat / 4 = 0x00040 / 4 ∧ (0x00047 : BusAddr).toNat / 4 = 0x00044 / 4 := by decide

/-- IN[15] under a running CAR_LUT of count 16 (a race), and with no command running. -/
theorem test_witness_InWriteAndRead :
    (0x1003C : BusAddr).toNat / 4 = (0x10000 + 4 * 15) / 4 ∧ 15 < idleS.cfg.bufDepth ∧
    (before (.write 0x1003C 7) (busyWith idleS .carLut (argsOf 0 16 0 0 0 0 0))).pending = [.write 0x1003C 7] ∧
    (busyWith idleS .carLut (argsOf 0 16 0 0 0 0 0)).busy = true ∧
    decode (busyWith idleS .carLut (argsOf 0 16 0 0 0 0 0)).cmd = .ok .carLut ∧
    15 < (busyWith idleS .carLut (argsOf 0 16 0 0 0 0 0)).snap.a1.toNat ∧ ¬(idleS.busy = true) ∧
    Memory.wordAt (idleS.putIn 15 7).mem (0x10000 + 4 * 15) = some 7 ∧
    Memory.wordAt idleS.mem (0x10000 + 4 * 15) = none ∧
    (before (.read 0x1003C) idleS).pending = [.read 0x1003C] := by decide

theorem test_witness_ResetStepGivesTheResetValues :
    (before .reset (busyWith table5 .carGen (argsOf 0 16 1 0 0 0 0))).pending = [.reset] := by decide

theorem test_witness_InterruptLevel :
    step (before (.write 0x00010 2) idleS) = .next (after (before (.write 0x00010 2) idleS)) ∧
    (busyWith idleS .nop Args.zero).busy = true ∧ (busyWith idleS .nop Args.zero).pending = [] ∧
    (before (.write 0x00018 2) idleS).busy = false ∧ (before .reset idleS).pending = [.reset] :=
  ⟨step_after _ ⟨_, rfl⟩, by decide⟩

/-- The last chip index and column of REF-S, and the first ones past them. -/
theorem test_witness_CtWriteStoresOneChip :
    ((busyWith idleS .ctWrite (argsOf 15 3 0xFF 0 0 0 0)).snap.a0.toNat < idleS.cfg.lMax ∧
      (busyWith idleS .ctWrite (argsOf 15 3 0xFF 0 0 0 0)).snap.a1.toNat < idleS.cfg.prnMax) ∧
    idleS.cfg.lMax ≤ (busyWith idleS .ctWrite (argsOf 16 0 0 0 0 0 0)).snap.a0.toNat ∧
    idleS.cfg.prnMax ≤ (busyWith idleS .ctWrite (argsOf 0 4 0 0 0 0 0)).snap.a1.toNat := by decide

/-- The least and the greatest shape of REF-S, and the first ones past them. -/
theorem test_witness_CtBuildFillsTheGuardRowsOrRejects :
    idleS.cfg.wf = true ∧
    (2 ≤ (busyWith idleS .ctBuild (argsOf 2 1 0 0 0 0 0)).snap.a0.toNat ∧
      1 ≤ (busyWith idleS .ctBuild (argsOf 2 1 0 0 0 0 0)).snap.a1.toNat) ∧
    ((busyWith idleS .ctBuild (argsOf 16 4 0 0 0 0 0)).snap.a0.toNat ≤ idleS.cfg.lMax ∧
      (busyWith idleS .ctBuild (argsOf 16 4 0 0 0 0 0)).snap.a1.toNat ≤ idleS.cfg.prnMax) ∧
    (busyWith idleS .ctBuild (argsOf 1 1 0 0 0 0 0)).snap.a0.toNat < 2 ∧
    idleS.cfg.lMax < (busyWith idleS .ctBuild (argsOf 17 1 0 0 0 0 0)).snap.a0.toNat ∧
    (busyWith idleS .ctBuild (argsOf 2 0 0 0 0 0 0)).snap.a1.toNat < 1 ∧
    idleS.cfg.prnMax < (busyWith idleS .ctBuild (argsOf 2 5 0 0 0 0 0)).snap.a1.toNat := by decide

/-- No table; row L + 2; column CT_PRNS; the last cell, written; the last cell, unwritten. -/
theorem test_witness_CtReadReturnsTheChip :
    (busyWith idleS .ctRead Args.zero).tableValid = false ∧
    (busyWith table5 .ctRead (argsOf 7 0 0 0 0 0 0)).tableValid = true ∧
    table5.ctLen.toNat + 1 < (busyWith table5 .ctRead (argsOf 7 0 0 0 0 0 0)).snap.a0.toNat ∧
    table5.ctPrns.toNat ≤ (busyWith table5 .ctRead (argsOf 0 1 0 0 0 0 0)).snap.a1.toNat ∧
    (busyWith table5 .ctRead (argsOf 6 0 0 0 0 0 0)).snap.a0.toNat ≤ table5.ctLen.toNat + 1 ∧
    (busyWith table5 .ctRead (argsOf 6 0 0 0 0 0 0)).snap.a1.toNat < table5.ctPrns.toNat ∧
    (busyWith table5 .ctRead (argsOf 6 0 0 0 0 0 0)).cell 6 0 = some 1 ∧
    (busyWith { table5 with table := [] } .ctRead (argsOf 6 0 0 0 0 0 0)).cell 6 0 = none := by decide

/-- The same places for the unchecked read: no table; outside the table by row and by column; the last cell, written
and unwritten. -/
theorem test_witness_CtReadUncheckedReturnsTheChipOrAnyWord :
    (busyWith idleS .ctReadUnchecked Args.zero).tableValid = false ∧ table5.tableValid = true ∧
    table5.ctLen.toNat + 1 < (busyWith table5 .ctReadUnchecked (argsOf 7 0 0 0 0 0 0)).snap.a0.toNat ∧
    table5.ctPrns.toNat ≤ (busyWith table5 .ctReadUnchecked (argsOf 0 1 0 0 0 0 0)).snap.a1.toNat ∧
    (let s := busyWith table5 .ctReadUnchecked (argsOf 6 0 0 0 0 0 0)
     s.snap.a0.toNat ≤ s.ctLen.toNat + 1 ∧ s.snap.a1.toNat < s.ctPrns.toNat ∧
      s.cell s.snap.a0.toNat s.snap.a1.toNat = some 1 ∧
      State.cell { s with table := [] } s.snap.a0.toNat s.snap.a1.toNat = none) := by decide

theorem test_witness_TheTwoReadsAgree :
    let s := busyWith table5 .ctRead (argsOf 6 0 0 0 0 0 0)
    s.tableValid = true ∧ s.snap.a0.toNat ≤ s.ctLen.toNat + 1 ∧ s.snap.a1.toNat < s.ctPrns.toNat := by decide

theorem test_witness_TableRoundTrip :
    idleS.cfg.wf = true ∧ 2 ≤ [(1 : Byte), 0xFF].length ∧ [(1 : Byte), 0xFF].length ≤ idleS.cfg.lMax ∧ 3 < 4 ∧
    4 ≤ idleS.cfg.prnMax ∧ [(1 : Byte), 0xFF].getLast? = some 0xFF ∧ [(1 : Byte), 0xFF].head? = some 1 := by decide

/-- Count BUF_DEPTH and the last column; every cell written, and none. -/
theorem test_witness_CodeSampleWritesTheSampledChips :
    let s := busyWith table5 .codeSample (argsOf 0 16 0 1 0 0 0)
    s.tableValid = true ∧ s.snap.a3.toNat * 2 ^ 32 + s.snap.a2.toNat ≠ 0 ∧ s.snap.a1.toNat ≤ s.cfg.bufDepth ∧
    s.snap.a6.toNat < s.ctPrns.toNat ∧ 15 < s.snap.a1.toNat ∧
    (∀ j, j < s.snap.a1.toNat → s.cell (s.sampleRow j) s.snap.a6.toNat ≠ none) ∧
    State.cell { s with table := [] } (s.sampleRow 15) s.snap.a6.toNat = none := by decide

theorem test_witness_CodeSampleRaisesInOrder :
    (busyWith idleS .codeSample Args.zero).tableValid = false ∧ table5.tableValid = true ∧
    (let x := (busyWith table5 .codeSample Args.zero).snap
     x.a3.toNat * 2 ^ 32 + x.a2.toNat = 0) ∧
    table5.cfg.bufDepth < (busyWith table5 .codeSample (argsOf 0 17 0 1 0 0 0)).snap.a1.toNat ∧
    (let s := busyWith table5 .codeSample (argsOf 0 16 1 0 0 0 1)
     s.snap.a3.toNat * 2 ^ 32 + s.snap.a2.toNat ≠ 0 ∧ s.snap.a1.toNat ≤ s.cfg.bufDepth ∧
      s.ctPrns.toNat ≤ s.snap.a6.toNat) := by decide

/-- The least length the accumulator is stated for. -/
theorem test_witness_CodeAccumulatorGivesTheChipIndex : 0 < 1 ∧ codeAccAt (argsOf 0 0 0 1 0 0 0) 1 3 = 0 := by decide

/-- The greatest L with the least increment; L = 0; inc = 0. -/
theorem test_witness_CodePhaseReturnsTheCentredResidual :
    (let x := (busyWith idleS .codePhase (argsOf 0 0xFFFFFFFF 1 0 0 0 0)).snap
     x.a1.toNat ≠ 0 ∧ x.a3.toNat * 2 ^ 32 + x.a2.toNat ≠ 0) ∧
    (busyWith idleS .codePhase (argsOf 0 0 1 0 0 0 0)).snap.a1.toNat = 0 ∧
    (let x := (busyWith idleS .codePhase (argsOf 0 5 0 0 0 0 0)).snap
     x.a3.toNat * 2 ^ 32 + x.a2.toNat = 0) := by decide

theorem test_witness_CodePhaseRange : ∃ s t : State, exec .codePhase s = .next t ∧ t.err = .ok :=
  ⟨busyWith idleS .codePhase (argsOf 0 0xFFFFFFFF 1 0 0 0 0), _, rfl, by decide⟩

/-- Two commands on table 5 at one chip per sample: sample 0 of the first and sample 5 of the second, which starts at
sample 5, read one written cell one period apart. -/
theorem test_witness_SamplingIsPeriodic :
    (((5 : Nat) : Int) * 2 ^ 32 ∣ codePos (argsOf 0 6 0 1 0 0 0) 5 - codePos (argsOf 0 6 0 1 0 0 0) 0) ∧
    (let s := busyWith table5 .codeSample (argsOf 0 1 0 1 0 0 0)
     let s' := busyWith table5 .codeSample (argsOf 5 1 0 1 0 0 0)
     ∃ t t' : State, exec .codeSample s = .next t ∧ exec .codeSample s' = .next t' ∧ t.err = .ok ∧ t'.err = .ok ∧
      0 < s.snap.a1.toNat ∧ 0 < s'.snap.a1.toNat ∧ s'.ctLen = s.ctLen ∧ s'.snap.a6 = s.snap.a6 ∧
      (∀ r, s'.cell r s.snap.a6.toNat = s.cell r s.snap.a6.toNat) ∧
      s.cell (s.sampleRow 0) s.snap.a6.toNat ≠ none ∧
      ((s.ctLen.toNat : Int) * 2 ^ 32) ∣ (codePos s'.snap (s'.snap.a0.toInt + ((0 : Nat) : Int)) -
        codePos s.snap (s.snap.a0.toInt + ((0 : Nat) : Int))) ∧
      (s.snap.a5 ++ s.snap.a4 : BitVec 64).toInt = 0 ∧ s.snap.a3.toNat * 2 ^ 32 + s.snap.a2.toNat = 2 ^ 32 ∧
      (s'.snap.a5 ++ s'.snap.a4 : BitVec 64).toInt = 0 ∧ s'.snap.a3.toNat * 2 ^ 32 + s'.snap.a2.toNat = 2 ^ 32 ∧
      s.snap.a0.toInt + ((0 : Nat) : Int) = 0 ∧ s'.snap.a0.toInt + ((0 : Nat) : Int) = (s.ctLen.toNat : Int)) :=
  ⟨by decide, _, _, rfl, rfl, by decide, by decide, by decide, by decide, rfl, rfl, fun _ => rfl, by decide, by decide,
    by decide, by decide, by decide, by decide, by decide, by decide⟩

/-- The first and the last ROM index. -/
theorem test_witness_RomHoldsTheRoundedCosineAndSine : 0 ≤ 2 ^ 2 ∧ 2 ^ 2 ≤ 2 ^ 2 := by decide

/-- A boundary word of quadrant 1, a word off the boundaries, and θ = 0. -/
theorem test_witness_FoldFindsTheNearestIndex :
    16 ≤ 16 ∧ ((0x40000000#32).toNat % 2 ^ 30 = 0 ∧ (foldPhase 16 0x40000000#32).quad.val ≠ 0) ∧
    ¬((0x40000001#32).toNat % 2 ^ 30 = 0 ∧ (foldPhase 16 0x40000001#32).quad.val ≠ 0) ∧
    ¬((0#32).toNat % 2 ^ 30 = 0 ∧ (foldPhase 16 0#32).quad.val ≠ 0) := by decide

/-- The two ends of the configuration's ranges, and a phase word for each quadrant of the fold. -/
theorem test_witness_CarrierRangeAndBoundary :
    Config.wf { q := 16, a := 14, lMax := 2, prnMax := 1, bufDepth := 1 } = true ∧
    Config.wf { q := 0, a := 0, lMax := 2, prnMax := 1, bufDepth := 1 } = true ∧
    (foldPhase 16 0x40000000#32).quadEff = 0 ∧ (foldPhase 16 0x80000000#32).quadEff = 1 ∧
    (foldPhase 16 0xC0000000#32).quadEff = 2 ∧ (foldPhase 16 0xFFFFFFFF#32).quadEff = 3 := by decide

theorem test_witness_CarEvalReturnsTheFold : (busyWith idleS .carEval (argsOf 0 0 0 0 0x40000000 0 0)).cfg.wf = true := by
  decide

theorem test_witness_CarrierErrorBound : Config.refS.wf = true ∧ Config.refM.wf = true := by decide

theorem test_witness_CarPhasesWritesThePhases :
    (busyWith idleS .carPhases (argsOf 0 16 0 0 0 0 0)).snap.a1.toNat ≤ idleS.cfg.bufDepth ∧
    idleS.cfg.bufDepth < (busyWith idleS .carPhases (argsOf 0 17 0 0 0 0 0)).snap.a1.toNat := by decide

/-- Count BUF_DEPTH and BUF_DEPTH + 1. -/
theorem test_witness_CarGenWritesTheCarrier :
    (busyWith idleS .carGen (argsOf 0 16 0 0 0 0 0)).snap.a1.toNat ≤ idleS.cfg.bufDepth ∧
    idleS.cfg.bufDepth < (busyWith idleS .carGen (argsOf 0 17 0 0 0 0 0)).snap.a1.toNat := by decide

/-- IN[15] raced, written, and unwritten. -/
theorem test_witness_CarLutWritesTheLookups :
    let s := busyWith idleS .carLut (argsOf 0 16 0 0 0 0 0)
    s.snap.a1.toNat ≤ s.cfg.bufDepth ∧ 15 < s.snap.a1.toNat ∧
    15 ∈ (hostWrite 0x1003C 7 s).raced ∧ 15 ∉ s.raced ∧
    Memory.wordAt (s.putIn 15 7).mem (0x10000 + 4 * 15) = some 7 ∧ Memory.wordAt s.mem (0x10000 + 4 * 15) = none ∧
    s.cfg.bufDepth < (busyWith idleS .carLut (argsOf 0 17 0 0 0 0 0)).snap.a1.toNat := by decide

theorem test_witness_CarRomReadReturnsTheEntry :
    idleS.cfg.wf = true ∧ (busyWith idleS .carRomRead (argsOf 4 0 0 0 0 0 0)).snap.a0.toNat ≤ 2 ^ idleS.cfg.q ∧
    2 ^ idleS.cfg.q < (busyWith idleS .carRomRead (argsOf 5 0 0 0 0 0 0)).snap.a0.toNat := by decide

/-- V-CAR-18: one phase, copied from OUT[0] to IN[0]. -/
theorem test_witness_SplitPipelineEqualsFused :
    ∃ s p g u l : State, exec .carPhases s = .next p ∧ exec .carGen s = .next g ∧ p.err = .ok ∧ u.cfg = s.cfg ∧
      u.snap.a1 = s.snap.a1 ∧ u.raced = [] ∧
      (∀ j, j < s.snap.a1.toNat → Memory.wordAt u.mem (inAddr j) = Memory.wordAt p.mem (outAddr j)) ∧
      exec .carLut u = .next l :=
  ⟨busyWith idleS .carPhases (argsOf 0 1 0 0 0x50000000 0 0), _, _,
    busyWith (idleS.putIn 0 0x50000000) .carLut (argsOf 0 1 0 0 0x50000000 0 0), _, rfl, rfl, by decide, by decide,
    by decide, by decide, by decide, rfl⟩

/-- Under REF-S φ = 0x10000000 lies off the halfway points and φ = 0x08000000 on one (W7). -/
theorem test_witness_CarrierSymmetries :
    Config.refS.wf = true ∧
    ((0x10000000#32).toNat % 2 ^ 30) % 2 ^ (30 - Config.refS.q) ≠ 2 ^ (30 - Config.refS.q - 1) ∧
    ((0x08000000#32).toNat % 2 ^ 30) % 2 ^ (30 - Config.refS.q) = 2 ^ (30 - Config.refS.q - 1) := by decide

/-- A state with an empty table and nothing in the buffers keeps the invariant if its shape and flags do. -/
theorem inv_empty {s : State} (hc : s.cfg.wf = true) (ht : s.table = []) (hm : s.mem = []) (hr : s.raced = [])
    (hs : s.ShapeOk)
    (hb : s.busy = true → s.done = false ∧ s.err = .ok ∧
      ((s.cmd = 0x00000001#32 ∨ s.cmd = 0x00000002#32) → s.tableValid = false))
    (hi : s.busy = false → s.cmd = 0 ∧ s.snap = Args.zero) : s.Inv :=
  { config := hc
    tableCanonical := by rw [ht]; exact List.Pairwise.nil
    tableCells := by rw [ht]; exact fun _ h => absurd h List.not_mem_nil
    memCanonical := by rw [hm]; exact List.Pairwise.nil
    memBytes := by rw [hm]; exact fun _ h => absurd h List.not_mem_nil
    memWords := by rw [hm]; exact fun _ => rfl
    shape := hs
    busyFlags := hb
    idleHolds := fun h => ⟨(hi h).1, (hi h).2, hr⟩
    racedWords := by rw [hr]; exact ⟨List.nodup_nil, fun _ h => absurd h List.not_mem_nil⟩ }

/-- A table of two chips, built and never written, with CT_READ of row 1 running. -/
def unwrittenRead : State :=
  busyWith { idleS with tableValid := true, ctLen := 2, ctPrns := 1 } .ctRead (argsOf 1 0 0 0 0 0 0)

theorem unwrittenRead_inv : unwrittenRead.Inv :=
  inv_empty (by decide) rfl rfl rfl (.inr (by decide)) (fun _ => by decide) (fun h => absurd h (by decide))

/-- An idle state and a busy one that keep the invariant. -/
theorem test_witness_EveryStepKeepsTheInvariant :
    idleS.Inv ∧ unwrittenRead.Inv ∧ step unwrittenRead = .next (after unwrittenRead) :=
  ⟨inv_empty (by decide) rfl rfl rfl (.inl ⟨rfl, rfl, rfl⟩) (fun h => absurd h (by decide)) (fun _ => by decide),
    unwrittenRead_inv, step_after _ ⟨_, rfl⟩⟩

/-- A reachable table whose guard rows are copies. -/
theorem test_witness_EveryStepKeepsTheGuardRows :
    unwrittenRead.Inv ∧ unwrittenRead.tableValid = true ∧ unwrittenRead.GuardRows ∧
    step unwrittenRead = .next (after unwrittenRead) :=
  ⟨unwrittenRead_inv, rfl, fun _ _ _ => ⟨rfl, rfl⟩, step_after _ ⟨_, rfl⟩⟩

/-- Each status flag changes at one of its events: DONE at a completion, CMD_OVR at a dropped write and by a 1 written
to it, IRQ_EN by a write to CTRL, BUSY at an acceptance, ERR at a raise. -/
theorem test_witness_StatusChangesOnlyAtItsEvents :
    (after (busyWith idleS .nop Args.zero)).done ≠ (busyWith idleS .nop Args.zero).done ∧
    (after (before (.write 0x00018 0) (busyWith idleS .nop Args.zero))).cmdOvr ≠ idleS.cmdOvr ∧
    (after (before (.write 0x00010 8) { idleS with cmdOvr := true })).cmdOvr ≠ true ∧
    (after (before (.write 0x00014 1) idleS)).irqEn ≠ idleS.irqEn ∧
    (after (before (.write 0x00018 0) idleS)).busy ≠ idleS.busy ∧
    (after (idleS.accept 0x00000005)).err ≠ (idleS.accept 0x00000005).err := by decide

/-- A successful CT_BUILD sets TABLE_VALID; an accepted CT_WRITE and a reset clear it. -/
theorem test_witness_OnlyBuildMakesTheTableReachable :
    ((busyWith idleS .ctBuild (argsOf 2 1 0 0 0 0 0)).tableValid = false ∧
      (after (busyWith idleS .ctBuild (argsOf 2 1 0 0 0 0 0))).tableValid = true) ∧
    (table5.tableValid = true ∧ (after (before (.write 0x00018 1) table5)).tableValid = false) ∧
    (after (before .reset table5)).tableValid = false := by decide

theorem test_witness_OnlyTheHostChangesTheArguments :
    (after (before (.write 0x0003C 5) idleS)).args ≠ (before (.write 0x0003C 5) idleS).args ∧
    (after (before .reset { idleS with args := argsOf 1 0 0 0 0 0 0 })).args ≠ argsOf 1 0 0 0 0 0 0 := by decide

/-- RESULT0, CT_LEN and CT_PRNS change at a completion, the engine's turn being the step's. -/
theorem test_witness_OnlyTheirCommandsChangeResultsAndShape :
    (after (busyWith table5 .ctRead (argsOf 1 0 0 0 0 0 0))).result0 ≠ table5.result0 ∧
    (after (before .engine (busyWith table5 .ctRead (argsOf 1 0 0 0 0 0 0)))).result0 ≠ table5.result0 ∧
    (after (busyWith idleS .ctBuild (argsOf 2 1 0 0 0 0 0))).ctLen ≠ idleS.ctLen ∧
    (after (busyWith idleS .ctBuild (argsOf 2 1 0 0 0 0 0))).ctPrns ≠ idleS.ctPrns := by decide

theorem test_witness_OnlyTheirWritersChangeTheStores :
    Memory.byteAt (after (busyWith idleS .ctWrite (argsOf 0 0 1 0 0 0 0))).table (cellKey 1 0) ≠
      Memory.byteAt idleS.table (cellKey 1 0) ∧
    Memory.byteAt (after (busyWith idleS .carGen (argsOf 0 1 0 0 0 0 0))).mem (0x20000 + 3) ≠
      Memory.byteAt idleS.mem (0x20000 + 3) ∧
    Memory.byteAt (after (before (.write 0x1003C 5) idleS)).mem (0x1003C + 3) ≠
      Memory.byteAt idleS.mem (0x1003C + 3) := by decide

theorem test_witness_ARaiseWritesOnlyStatus : ∃ t, exec .ctRead idleS = .next t ∧ t.err ≠ .ok :=
  ⟨_, rfl, by decide⟩

theorem test_witness_LiveArgumentsDoNotReachTheCommand : ∃ t, exec .carGen idleS = .next t := ⟨_, rfl⟩

/-- Two states that differ in ARG and in what the command does not read, with CT_READ of a written cell. -/
theorem test_witness_CommandsAreRestartable :
    ∃ s s' t t' : State, s ≠ s' ∧ exec .ctRead s = .next t ∧ exec .ctRead s' = .next t' ∧ s.cfg = s'.cfg ∧
      s.snap = s'.snap ∧ s.tableValid = s'.tableValid ∧ s.ctLen = s'.ctLen ∧ s.ctPrns = s'.ctPrns ∧ SameCells s s' ∧
      s.snap.a0.toNat ≤ s.ctLen.toNat + 1 ∧ s.snap.a1.toNat < s.ctPrns.toNat ∧
      s.cell s.snap.a0.toNat s.snap.a1.toNat ≠ none ∧ t.err = .ok :=
  ⟨busyWith table5 .ctRead (argsOf 1 0 0 0 0 0 0),
    { busyWith table5 .ctRead (argsOf 1 0 0 0 0 0 0) with args := Args.zero, result0 := 9 }, _, _, by decide, rfl, rfl,
    rfl, rfl, rfl, rfl, rfl, fun _ => rfl, by decide, by decide, by decide, by decide⟩

/-- CODE_SAMPLE, with every cell it samples written. -/
theorem test_witness_CommandsAreRestartable_codeSample :
    let s := busyWith table5 .codeSample (argsOf 0 16 0 1 0 0 0)
    s.tableValid = true ∧ ∀ j, j < s.snap.a1.toNat → s.cell (s.sampleRow j) s.snap.a6.toNat ≠ none := by decide

/-- CAR_LUT, with its IN word written. -/
theorem test_witness_CommandsAreRestartable_carLut :
    let s := busyWith (idleS.putIn 0 0x50000000) .carLut (argsOf 0 1 0 0 0 0 0)
    s.raced = [] ∧ ∀ j, j < s.snap.a1.toNat → Memory.wordAt s.mem (inAddr j) ≠ none := by decide

/-- The same table with CODE_SAMPLE of two samples running. -/
def unwrittenSample : State :=
  busyWith { idleS with tableValid := true, ctLen := 2, ctPrns := 1 } .codeSample (argsOf 0 2 0 1 0 0 0)

theorem unwrittenSample_inv : unwrittenSample.Inv :=
  inv_empty (by decide) rfl rfl rfl (.inr (by decide)) (fun _ => by decide) (fun h => absurd h (by decide))

/-- A read and a sampling of unwritten cells. -/
theorem test_witness_OnlyUnwrittenCellsAreRecorded :
    unwrittenRead.Inv ∧ step unwrittenRead = .next (after unwrittenRead) ∧ unwrittenRead.fault = none ∧
    (after unwrittenRead).fault ≠ none ∧
    unwrittenSample.Inv ∧ step unwrittenSample = .next (after unwrittenSample) ∧ unwrittenSample.fault = none ∧
    (after unwrittenSample).fault ≠ none :=
  ⟨unwrittenRead_inv, step_after _ ⟨_, rfl⟩, by decide, by decide, unwrittenSample_inv, step_after _ ⟨_, rfl⟩,
    by decide, by decide⟩

end Sys2Proof.Tests
end

section
/-! What a step can be, once more and finer than `step_cases`: one constructor per event of 10_state.md, which the
frame statements and the invariant split on. -/

namespace Sys2Proof.Machine

/-- The step is the engine's turn: no move is left, or the oldest one is the engine's (40_engine.md R125). -/
def State.EngineTurnNext (s : State) : Prop := s.pending = [] ∨ ∃ rest, s.pending = .engine :: rest

/-- The events a step can be. A `silent` step (a read, an ignored write, an idle engine's turn) moves no register. -/
inductive StepEvent (s t : State) : Prop
  | silent (v : Word) (d : Nat) (p : List Move) (ht : t = { s with rdata := v, draws := d, pending := p })
  | reset (rest : List Move) (hp : s.pending = .reset :: rest) (ht : t = hostReset s.popMove)
  | status (addr : BusAddr) (w : Word) (rest : List Move) (hp : s.pending = .write addr w :: rest)
      (ha : addr.toNat / 4 = 0x04) (ht : t = (s.popMove.writeStatus w).tick)
  | ctrl (addr : BusAddr) (w : Word) (rest : List Move) (hp : s.pending = .write addr w :: rest)
      (ha : addr.toNat / 4 = 0x05) (ht : t = (s.popMove.writeCtrl w).tick)
  | accept (addr : BusAddr) (w : Word) (rest : List Move) (hp : s.pending = .write addr w :: rest)
      (ha : addr.toNat / 4 = 0x06) (hb : s.busy = false) (ht : t = (s.popMove.accept w).tick)
  | overrun (addr : BusAddr) (w : Word) (rest : List Move) (hp : s.pending = .write addr w :: rest)
      (ha : addr.toNat / 4 = 0x06) (hb : s.busy = true) (ht : t = State.tick { s.popMove with cmdOvr := true })
  | argument (addr : BusAddr) (w : Word) (rest : List Move) (j : Fin 8) (hp : s.pending = .write addr w :: rest)
      (ha : addr.toNat / 4 = 0x08 + j.val) (ht : t = State.tick { s.popMove with args := s.args.set j w })
  | inWord (addr : BusAddr) (w : Word) (rest : List Move) (i : Nat) (hp : s.pending = .write addr w :: rest)
      (ha : addr.toNat / 4 = 0x4000 + i) (hi : i < s.cfg.bufDepth) (hr : i < 0x4000)
      (ht : t = ((s.popMove.putIn i w).noteRace i).tick)
  | raised (e : StatusCode) (turn : s.EngineTurnNext) (hb : s.busy = true) (ht : t = s.popMove.complete e)
  | finished (i : Instr) (u : State) (turn : s.EngineTurnNext) (hb : s.busy = true) (hd : decode s.cmd = .ok i)
      (hu : bodyOf i s.popMove = .ok u) (ht : t = u.complete .ok)

/-- Every step is one of the events. -/
theorem stepEvent {s t : State} (h : step s = .next t) : StepEvent s t := by
  rcases step_cases h with ⟨addr, rest, -, ht⟩ | ⟨addr, w, rest, hp, ht⟩ | ⟨rest, hp, ht⟩ | ⟨turn, hb, ht⟩ | ⟨-, -, ht⟩
  · exact .silent _ _ _ ht
  · rcases hostWrite_cases addr w s.popMove with
      ⟨ha, hw⟩ | ⟨ha, hw⟩ | ⟨ha, hb, hw⟩ | ⟨ha, hb, hw⟩ | ⟨j, ha, hw⟩ | ⟨i, ha, hw⟩ | hw
    · exact .status addr w rest hp (target_status_inv ha) (ht.trans hw)
    · exact .ctrl addr w rest hp (target_ctrl_inv ha) (ht.trans hw)
    · exact .accept addr w rest hp (target_cmd_inv ha) hb (ht.trans hw)
    · exact .overrun addr w rest hp (target_cmd_inv ha) hb (ht.trans hw)
    · exact .argument addr w rest j hp (target_arg_inv ha) (ht.trans hw)
    · obtain ⟨haddr, hi, hr⟩ := target_inBuf_inv ha
      exact .inWord addr w rest i hp haddr hi hr (ht.trans hw)
    · exact .silent _ _ _ (ht.trans hw)
  · exact .reset rest hp ht
  · rcases engine_cases s.popMove with ⟨e, -, hc⟩ | ⟨i, u, hd, hu, hc⟩
    · exact .raised e turn hb (ht.trans hc)
    · exact .finished i u turn hb hd hu (ht.trans hc)
  · exact .silent _ _ _ ht

/-! ## What a command's body leaves -/

/-- A body that ends OK and completes leaves what every completion leaves (40_engine.md R122). -/
theorem completed_of_body {i : Instr} {s u : State} (h : bodyOf i s = .ok u) : Completed s (u.complete .ok) .ok := by
  rcases body_cases h with ⟨-, rfl⟩ | ⟨-, r, c, v, rfl, -⟩ | ⟨-, len, prns, rfl, -⟩ | ⟨-, r0, r1, n, rfl⟩ |
    ⟨-, n, f, n', rfl, -⟩ <;> constructor <;> simp

/-- RESULT0 and RESULT1 are written by their five commands only (10_state.md R23). -/
theorem body_results {i : Instr} {s u : State} (h : bodyOf i s = .ok u) :
    writesResult i = true ∨ (u.result0 = s.result0 ∧ u.result1 = s.result1) := by
  rcases body_cases h with ⟨-, rfl⟩ | ⟨-, r, c, v, rfl, -⟩ | ⟨-, len, prns, rfl, -⟩ | ⟨hi, -⟩ | ⟨-, n, f, n', rfl, -⟩
  case inr.inr.inr.inl => exact .inl hi
  all_goals exact .inr ⟨by simp, by simp⟩

/-- The table's shape and TABLE_VALID are written by CT_BUILD only, which sets TABLE_VALID
(10_state.md R32 to R34). -/
theorem body_shape {i : Instr} {s u : State} (h : bodyOf i s = .ok u) :
    (i = .ctBuild ∧ u.tableValid = true) ∨ SameShape s u := by
  rcases body_cases h with ⟨-, rfl⟩ | ⟨-, r, c, v, rfl, -⟩ | ⟨hi, len, prns, rfl, -⟩ | ⟨-, r0, r1, n, rfl⟩ |
    ⟨-, n, f, n', rfl, -⟩
  case inr.inr.inl => exact .inl ⟨hi, rfl⟩
  all_goals exact .inr ⟨by simp, by simp, by simp⟩

/-- The code table is written by CT_WRITE and CT_BUILD only (10_state.md R35). -/
theorem body_table {i : Instr} {s u : State} (h : bodyOf i s = .ok u) :
    (i = .ctWrite ∨ i = .ctBuild) ∨ u.table = s.table := by
  rcases body_cases h with ⟨-, rfl⟩ | ⟨hi, -⟩ | ⟨hi, -⟩ | ⟨-, r0, r1, n, rfl⟩ | ⟨-, n, f, n', rfl, -⟩
  · exact .inr rfl
  · exact .inl (.inl hi)
  · exact .inl (.inr hi)
  all_goals exact .inr (by simp)

/-- A command that writes OUT and ends OK writes the words below its count (10_state.md R38). -/
theorem body_outs {i : Instr} {s u : State} (hi : writesOut i = true) (h : bodyOf i s = .ok u) :
    ∃ f, u.mem = writeOuts (opCount s.snap) f s.mem := by
  cases i with
  | codeSample =>
    simp only [bodyOf, codeSampleBody] at h
    split at h
    · cases h
    split at h
    · cases h
    obtain ⟨-, h⟩ := checkCount_ok h
    split at h
    · cases h
    · cases h; exact ⟨_, State.noteUnwritten_mem _ _⟩
  | carGen => obtain ⟨-, h⟩ := checkCount_ok h; cases h; exact ⟨_, rfl⟩
  | carPhases => obtain ⟨-, h⟩ := checkCount_ok h; cases h; exact ⟨_, rfl⟩
  | carLut => obtain ⟨-, h⟩ := checkCount_ok h; cases h; exact ⟨_, rfl⟩
  | _ => cases hi

/-- The buffers are written by the four OUT commands only, in the OUT words below the count (10_state.md R38). -/
theorem body_mem {i : Instr} {s u : State} (h : bodyOf i s = .ok u) (a : Nat) :
    (writesOut i = true ∧ outAddr 0 ≤ a ∧ a < outAddr (opCount s.snap)) ∨
      Memory.byteAt u.mem a = Memory.byteAt s.mem a := by
  rcases body_cases h with ⟨-, rfl⟩ | ⟨-, r, c, v, rfl, -⟩ | ⟨-, len, prns, rfl, -⟩ | ⟨-, r0, r1, n, rfl⟩ | ⟨hi, -⟩
  case inr.inr.inr.inr =>
    obtain ⟨f, hf⟩ := body_outs hi h
    by_cases ha : outAddr 0 ≤ a ∧ a < outAddr (opCount s.snap)
    · exact .inl ⟨hi, ha⟩
    · exact .inr (by rw [hf, byteAt_writeOuts_other _ _ _ _ (by omega)])
  all_goals exact .inr (by simp)

end Sys2Proof.Machine
end

section
/-! The invariant of `State.Inv`: each of its store clauses through each writer, then each event of a step. -/

namespace Sys2Proof.Machine

/-! ## The code table -/

/-- The two clauses of `State.Inv` on the code table. -/
structure Memory.CellsOk (c : Config) (m : Memory) : Prop where
  canonical : Memory.wf m
  cells : ∀ x ∈ m, x.1 / 65536 ≤ c.lMax + 1 ∧ x.1 % 65536 < c.prnMax

/-- The row and column a cell number names (log 11). -/
theorem cellKey_row_column {r c : Nat} (hc : c < 65536) : cellKey r c / 65536 = r ∧ cellKey r c % 65536 = c := by
  simp only [cellKey]; omega

theorem Memory.CellsOk.putCell {cfg : Config} {m : Memory} (h : CellsOk cfg m) (hcfg : cfg.wf = true) {r c : Nat}
    (v : Option Byte) (hr : r ≤ cfg.lMax + 1) (hc : c < cfg.prnMax) :
    CellsOk cfg (Memory.putCell m (cellKey r c) v) := by
  refine ⟨Memory.putCell_wf h.canonical _ _, fun x hx => ?_⟩
  obtain ⟨-, -, -, -, -, hprn, -, -⟩ := Config_wf_ranges hcfg
  obtain ⟨hrow, hcol⟩ := cellKey_row_column (r := r) (c := c) (by omega)
  rcases Memory.mem_putCell hx with hx | hx
  · rw [hx, hrow, hcol]; exact ⟨hr, hc⟩
  · exact h.cells x hx

theorem Memory.CellsOk.fillGuards {cfg : Config} {m : Memory} (h : CellsOk cfg m) (hcfg : cfg.wf = true) {len n : Nat}
    (hlen : len ≤ cfg.lMax) (hn : n ≤ cfg.prnMax) : CellsOk cfg (fillGuards len n m) := by
  induction n with
  | zero => exact h
  | succ n ih =>
    have h0 := (ih (by omega)).putCell hcfg (r := 0) (c := n)
      (Memory.byteAt (Machine.fillGuards len n m) (cellKey len n)) (by omega) (by omega)
    exact h0.putCell hcfg _ (by omega) (by omega)

/-! ## The buffers -/

/-- The three clauses of `State.Inv` on IN and OUT. -/
structure Memory.BuffersOk (depth : Nat) (m : Memory) : Prop where
  canonical : Memory.wf m
  bytes : ∀ x ∈ m, (0x10000 ≤ x.1 ∧ x.1 < 0x10000 + 4 * depth) ∨ (0x20000 ≤ x.1 ∧ x.1 < 0x20000 + 4 * depth)
  words : ∀ n, (Memory.byteAt m n).isSome = (Memory.byteAt m (4 * (n / 4))).isSome

/-- All four bytes of a word written are written. -/
theorem Memory.byteAt_putWord_isSome (m : Memory) (a : Nat) (w : Word) {x : Nat} (h : a ≤ x ∧ x < a + 4) :
    (Memory.byteAt (Memory.putWord m a w) x).isSome = true := by
  rw [Memory.byteAt_putWord]
  split_ifs
  case neg => omega
  all_goals rfl

theorem Memory.BuffersOk.putWord {depth : Nat} {m : Memory} (h : BuffersOk depth m) (w : Word) {a : Nat}
    (haligned : a % 4 = 0)
    (hwindow : (0x10000 ≤ a ∧ a + 4 ≤ 0x10000 + 4 * depth) ∨ (0x20000 ≤ a ∧ a + 4 ≤ 0x20000 + 4 * depth)) :
    BuffersOk depth (Memory.putWord m a w) where
  canonical := Memory.putWord_wf h.canonical _ _
  bytes x hx := by
    rcases mem_putWord hx with hx | hx
    · omega
    · exact h.bytes x hx
  words n := by
    by_cases hn : a ≤ n ∧ n < a + 4
    · rw [Memory.byteAt_putWord_isSome m a w hn, Memory.byteAt_putWord_isSome m a w (by omega)]
    · rw [Memory.byteAt_putWord_other m a w n (by omega), Memory.byteAt_putWord_other m a w _ (by omega)]
      exact h.words n

theorem Memory.BuffersOk.putIn {depth : Nat} {m : Memory} (h : BuffersOk depth m) (w : Word) {i : Nat}
    (hi : i < depth) : BuffersOk depth (Memory.putWord m (inAddr i) w) :=
  h.putWord w (by simp only [inAddr]; omega) (by simp only [inAddr]; omega)

theorem Memory.BuffersOk.writeOuts {depth : Nat} {m : Memory} (h : BuffersOk depth m) (f : Nat → Word) {n : Nat}
    (hn : n ≤ depth) : BuffersOk depth (writeOuts n f m) := by
  induction n with
  | zero => exact h
  | succ n ih =>
    exact (ih (by omega)).putWord _ (by simp only [outAddr]; omega) (by simp only [outAddr]; omega)

/-! ## The stores and the shape, which a command's body keeps -/

/-- The clauses of `State.Inv` that hold in the middle of a command too: all but those on BUSY and the hidden state. -/
structure State.StoresOk (s : State) : Prop where
  config : s.cfg.wf = true
  table : Memory.CellsOk s.cfg s.table
  mem : Memory.BuffersOk s.cfg.bufDepth s.mem
  shape : s.ShapeOk

theorem State.Inv.storesOk {s : State} (h : s.Inv) : s.StoresOk :=
  ⟨h.config, ⟨h.tableCanonical, h.tableCells⟩, ⟨h.memCanonical, h.memBytes, h.memWords⟩, h.shape⟩

/-- The shape clause reads the configuration, the two shape registers and TABLE_VALID only. -/
theorem State.ShapeOk.congr {s t : State} (h : s.ShapeOk) (hcfg : t.cfg = s.cfg) (hshape : SameShape s t) :
    t.ShapeOk := by
  simpa only [State.ShapeOk, hcfg, hshape.tableValid, hshape.ctLen, hshape.ctPrns] using h

/-- A successful CT_BUILD sets a legal shape, which its registers hold without loss (41_code_table.md R143). -/
theorem State.shapeOk_buildTable {s : State} (hcfg : s.cfg.wf = true) {len prns : Nat} (h2 : 2 ≤ len)
    (hlen : len ≤ s.cfg.lMax) (h1 : 1 ≤ prns) (hprns : prns ≤ s.cfg.prnMax) : (s.buildTable len prns).ShapeOk := by
  obtain ⟨-, -, -, hl, -, hp, -, -⟩ := Config_wf_ranges hcfg
  have elen : len % 2 ^ 24 = len := Nat.mod_eq_of_lt (by omega)
  have eprns : prns % 2 ^ 16 = prns := Nat.mod_eq_of_lt (by omega)
  refine .inr ?_
  simp only [State.buildTable_ctLen, State.buildTable_ctPrns, State.buildTable_cfg, BitVec.toNat_ofNat, elen, eprns]
  exact ⟨h2, hlen, h1, hprns⟩

/-- A command's body keeps the stores and the shape. -/
theorem State.StoresOk.body {i : Instr} {s u : State} (h : s.StoresOk) (hu : bodyOf i s = .ok u) : u.StoresOk := by
  have hcfg : u.cfg = s.cfg := (completed_of_body hu).cfg
  obtain ⟨hconfig, htable, hmem, hshape⟩ := h
  rcases body_cases hu with ⟨-, rfl⟩ | ⟨-, r, c, v, rfl, -, hr, hc⟩ | ⟨-, len, prns, rfl, h2, hlen, h1, hprns⟩ |
    ⟨-, r0, r1, n, rfl⟩ | ⟨-, n, f, n', rfl, hn⟩
  · exact ⟨hconfig, htable, hmem, hshape⟩
  · exact ⟨hconfig, htable.putCell hconfig (r := r) (some v) (by omega) hc, hmem, hshape⟩
  · exact ⟨hconfig, htable.fillGuards hconfig hlen hprns, hmem, State.shapeOk_buildTable hconfig h2 hlen h1 hprns⟩
  · exact ⟨by simpa, by simpa, by simpa, hshape.congr hcfg ⟨by simp, by simp, by simp⟩⟩
  · exact ⟨by simpa, by simpa, by simpa using hmem.writeOuts f hn, hshape.congr hcfg ⟨by simp, by simp, by simp⟩⟩

/-! ## One lemma per event -/

/-- After a completion the engine holds nothing, so the stores are all the invariant asks for. -/
theorem State.StoresOk.complete_inv {s : State} (h : s.StoresOk) (e : StatusCode) : (s.complete e).Inv where
  config := h.config
  tableCanonical := h.table.canonical
  tableCells := h.table.cells
  memCanonical := h.mem.canonical
  memBytes := h.mem.bytes
  memWords := h.mem.words
  shape := h.shape
  busyFlags hb := by cases hb
  idleHolds _ := ⟨rfl, rfl, rfl⟩
  racedWords := ⟨List.nodup_nil, fun _ h => absurd h List.not_mem_nil⟩

/-- The invariant does not read the overrun flag, CTRL, the live arguments, the results and the model's own fields
but `raced`. -/
theorem State.Inv.free_fields {s : State} (h : s.Inv) (cmdOvr irqEn : Bool) (args : Args) (result0 result1 : Word)
    (draws : Nat) (fault : Option Fault) (rdata : Word) (pending : List Move) :
    State.Inv { s with
      cmdOvr := cmdOvr, irqEn := irqEn, args := args, result0 := result0, result1 := result1, draws := draws,
      fault := fault, rdata := rdata, pending := pending } :=
  ⟨h.config, h.tableCanonical, h.tableCells, h.memCanonical, h.memBytes, h.memWords, h.shape, h.busyFlags, h.idleHolds,
    h.racedWords⟩

theorem State.Inv.popMove {s : State} (h : s.Inv) : s.popMove.Inv := h.free_fields ..

theorem State.Inv.tick {s : State} (h : s.Inv) : s.tick.Inv := h.free_fields ..

/-- The configuration at hand is in range (00_scope.md R10, R11; log 1). -/
theorem Config.built_wf : Config.built.wf = true := by
  simp only [Config.wf, Bool.and_eq_true, decide_eq_true_eq]
  simp only [Config.built]
  omega

/-- Every configuration in range gives a reset state that meets the invariant (10_state.md R44). -/
theorem State.resetWith_inv {c : Config} (h : c.wf = true) : (State.resetWith c).Inv where
  config := h
  tableCanonical := List.Pairwise.nil
  tableCells _ hx := absurd hx List.not_mem_nil
  memCanonical := List.Pairwise.nil
  memBytes _ hx := absurd hx List.not_mem_nil
  memWords _ := rfl
  shape := .inl ⟨rfl, rfl, rfl⟩
  busyFlags hb := by cases hb
  idleHolds _ := ⟨rfl, rfl, rfl⟩
  racedWords := ⟨List.nodup_nil, fun _ hx => absurd hx List.not_mem_nil⟩

theorem State.Inv.hostReset {s : State} (h : s.Inv) : (hostReset s).Inv :=
  (State.resetWith_inv h.config).free_fields ..

/-- A write to STATUS can only clear DONE, which is 0 while BUSY = 1 (10_state.md R29). -/
theorem State.Inv.writeStatus {s : State} (h : s.Inv) (w : Word) : (s.writeStatus w).Inv :=
  { h with
    busyFlags := fun hb => by
      obtain ⟨hdone, herr, hvalid⟩ := h.busyFlags hb
      exact ⟨by simp [hdone], herr, hvalid⟩ }

/-- Acceptance writes the flags as BUSY = 1 asks for (40_engine.md R121). -/
theorem State.Inv.accept {s : State} (h : s.Inv) (w : Word) : (s.accept w).Inv :=
  { h with
    shape := h.shape.imp
      (fun ⟨hlen, hprns, hvalid⟩ => ⟨hlen, hprns, by simp [hvalid]⟩) id
    busyFlags := fun _ => ⟨rfl, rfl, fun hw => if_pos hw⟩
    idleHolds := fun hb => by cases hb
    racedWords := ⟨List.nodup_nil, fun _ hx => absurd hx List.not_mem_nil⟩ }

theorem State.Inv.putIn {s : State} (h : s.Inv) (w : Word) {i : Nat} (hi : i < s.cfg.bufDepth) : (s.putIn i w).Inv :=
  have hmem := h.storesOk.mem.putIn w hi
  { h with
    memCanonical := hmem.canonical
    memBytes := hmem.bytes
    memWords := hmem.words }

/-- A race is noted only while a command runs, once, and for a word of the buffer (log 6). -/
theorem State.Inv.noteRace {s : State} (h : s.Inv) {i : Nat} (hi : i < s.cfg.bufDepth) : (s.noteRace i).Inv := by
  unfold State.noteRace
  split
  case isFalse => exact h
  case isTrue hrace =>
    obtain ⟨hrun, -, hnew⟩ := hrace
    obtain ⟨hnodup, hwords⟩ := h.racedWords
    have hbusy := ((running_carLut s).mp hrun).1
    exact { h with
      idleHolds := fun hb => absurd (hbusy.symm.trans hb) (by decide)
      racedWords := ⟨List.nodup_cons.mpr ⟨hnew, hnodup⟩, List.forall_mem_cons.mpr ⟨hi, hwords⟩⟩ }

/-- Settles O49, event by event: each keeps every clause, by its own lemma above. -/
theorem everyStepKeepsTheInvariant : Obligations.EveryStepKeepsTheInvariant := by
  intro s t h hstep
  have hpop := h.popMove
  cases stepEvent hstep with
  | silent v d p ht => subst ht; exact h.free_fields ..
  | reset rest hp ht => subst ht; exact hpop.hostReset
  | status addr w rest hp ha ht => subst ht; exact (hpop.writeStatus w).tick
  | ctrl addr w rest hp ha ht => subst ht; exact hpop.free_fields ..
  | accept addr w rest hp ha hb ht => subst ht; exact (hpop.accept w).tick
  | overrun addr w rest hp ha hb ht => subst ht; exact hpop.free_fields ..
  | argument addr w rest j hp ha ht => subst ht; exact hpop.free_fields ..
  | inWord addr w rest i hp ha hi hr ht => subst ht; exact ((hpop.putIn w hi).noteRace hi).tick
  | raised e turn hb ht => subst ht; exact hpop.storesOk.complete_inv e
  | finished i u turn hb hd hu ht => subst ht; exact (hpop.storesOk.body hu).complete_inv .ok

end Sys2Proof.Machine
end

section
/-! Reset, the host's registers and IN: each read and each write through the map. -/

namespace Sys2Proof.Machine

/-- Settles O50: the configuration at hand is in range, and the reset state asks for nothing else. -/
theorem resetSatisfiesTheInvariant : Obligations.ResetSatisfiesTheInvariant :=
  State.resetWith_inv Config.built_wf

/-- Settles O22: every field is the reset value written in `State.resetWith`. -/
theorem resetStateIsTheCleanEntryState : Obligations.ResetStateIsTheCleanEntryState := by
  have hargs : ∀ j, State.reset.args.get j = 0 := fun j => by fin_cases j <;> rfl
  exact ⟨rfl, rfl, hargs, rfl, rfl, rfl, rfl, fun _ _ => rfl, fun _ => rfl, rfl, rfl, rfl, Config.built_wf⟩

/-! ## A host access through the map -/

/-- A step on a host write, its target known. -/
theorem step_write_target {s : State} {addr : BusAddr} {w : Word} {rest : List Move} {x : Target}
    (hp : s.pending = .write addr w :: rest) (hx : target s.cfg addr = x) :
    step s = .next (State.tick (State.writeTarget { s with pending := rest } x w)) := by
  rw [step_write hp, ← hx]
  rfl

/-- A step on a host read, its target and the word it returns known. -/
theorem step_read_target {s : State} {addr : BusAddr} {rest : List Move} {x : Target} {v : Word} {fresh : Bool}
    (hp : s.pending = .read addr :: rest) (hx : target s.cfg addr = x) (hv : s.readTarget x = (v, fresh)) :
    step s = .next { s with
      rdata := v, draws := if fresh then s.draws + 1 else s.draws, pending := rest } := by
  have hv' : State.readTarget { s with pending := rest } (target s.cfg addr) = (v, fresh) := by rw [hx, ← hv]; rfl
  rw [step_read hp, hostRead, hv']

/-- The word a step on a host read returns. -/
theorem step_read_rdata {s t : State} {addr : BusAddr} {rest : List Move} {x : Target}
    (hp : s.pending = .read addr :: rest) (ht : step s = .next t) (hx : target s.cfg addr = x) :
    t.rdata = (s.readTarget x).1 := by
  rw [step_read_target hp hx rfl] at ht
  cases ht
  rfl

/-! ## STATUS and CTRL -/

/-- Settles O11: the write names STATUS, and clears by and-not. -/
theorem statusWriteClearsOnlyDoneAndOverrun : Obligations.StatusWriteClearsOnlyDoneAndOverrun := by
  intro s addr w rest ha hp
  have hclear : State.writeStatus { s with pending := rest } w =
      { s with done := s.done && !w[1], cmdOvr := s.cmdOvr && !w[3], pending := rest } := by
    simp only [State.writeStatus, Bool.if_false_left, Bool.decide_eq_true, Bool.and_comm]
    rfl
  refine ⟨s.draws + 1, ?_⟩
  rw [step_write_target hp (target_status _ ha), State.writeTarget, hclear]
  rfl

/-- CTRL as a number: IRQ_EN alone (10_state.md R30). -/
theorem ctrlWord_toNat (s : State) : s.ctrlWord.toNat = s.irqEn.toNat := by
  simp only [State.ctrlWord, append_toNat, BitVec.toNat_ofBool, BitVec.toNat_ofNat]
  omega

/-- Settles O12: the write and the read both name CTRL. -/
theorem controlWriteAndRead : Obligations.ControlWriteAndRead := by
  intro s addr rest ha
  refine ⟨fun w hp => ?write, fun hp => ?read, fun hp => ?reset⟩
  case write => exact ⟨s.draws + 1, step_write_target hp (target_ctrl _ ha)⟩
  case read => exact ⟨_, step_read_target hp (target_ctrl _ ha) rfl, ctrlWord_toNat s, rfl⟩
  case reset => exact ⟨_, step_reset hp, rfl⟩

/-- STATUS as a number, bit by bit (10_state.md R28). -/
theorem statusWord_toNat (s : State) : s.statusWord.toNat =
    s.busy.toNat + 2 * s.done.toNat + 4 * s.tableValid.toNat + 8 * s.cmdOvr.toNat + 2 ^ 8 * s.err.bits.toNat := by
  simp only [State.statusWord, append_toNat, BitVec.toNat_ofBool, BitVec.toNat_ofNat]
  omega

/-- Settles O17: the read names the register, whose word is taken apart as a number. -/
theorem statusAndShapeReadBack : Obligations.StatusAndShapeReadBack := by
  intro s addr rest hp code
  have hcode : s.err.bits.toNat = code := by
    simp only [code]
    cases s.err <;> rfl
  refine ⟨_, step_read hp, fun ha => ?_, fun ha => ?_, fun ha => ?_⟩
  · rw [step_read_rdata hp (step_read hp) (target_status _ ha), ← hcode]
    exact statusWord_toNat s
  · rw [step_read_rdata hp (step_read hp) (target_ctLen _ ha)]
    simp [State.readTarget, State.ctLenWord]
    omega
  · rw [step_read_rdata hp (step_read hp) (target_ctPrns _ ha)]
    simp [State.readTarget, State.ctPrnsWord]
    omega

/-! ## Argument registers -/

/-- A register written is read back, and the other seven read as before (10_state.md R22). -/
theorem Args.get_set (x : Args) (j k : Fin 8) (w : Word) : (x.set j w).get k = if k = j then w else x.get k := by
  fin_cases j <;> fin_cases k <;> rfl

/-- Settles O13: the access names ARG j, and `Args.set` keeps the other seven. -/
theorem argumentWriteAndRead : Obligations.ArgumentWriteAndRead := by
  intro s addr j rest ha
  have hx := target_arg s.cfg j (addr := addr) (by omega)
  refine ⟨fun w hp => ?write, fun hp => ?read⟩
  case write =>
    refine ⟨s.args.set j w, s.draws + 1, step_write_target hp hx, ?_, fun k hk => ?_⟩
    · rw [Args.get_set, if_pos rfl]
    · rw [Args.get_set, if_neg hk]
  case read => exact ⟨_, step_read_target hp hx rfl, rfl, rfl⟩

/-! ## ID and the configuration -/

theorem cfg0Word_toNat {c : Config} (h : c.wf = true) : (cfg0Word c).toNat = c.q + 2 ^ 8 * c.a := by
  obtain ⟨hq, ha, -⟩ := Config_wf_ranges h
  simp only [cfg0Word, append_toNat, BitVec.toNat_ofNat]
  omega

theorem cfg1Word_toNat {c : Config} (h : c.wf = true) : (cfg1Word c).toNat = c.lMax := by
  obtain ⟨-, -, -, hl, -⟩ := Config_wf_ranges h
  simp only [cfg1Word, append_toNat, BitVec.toNat_ofNat]
  omega

theorem cfg2Word_toNat {c : Config} (h : c.wf = true) : (cfg2Word c).toNat = c.bufDepth + 2 ^ 16 * c.prnMax := by
  obtain ⟨-, -, -, -, -, hp, -, hd⟩ := Config_wf_ranges h
  simp only [cfg2Word, append_toNat, BitVec.toNat_ofNat]
  omega

/-- ID and CFG0 to CFG2 ignore a write (10_state.md R24 to R27). -/
theorem writeTarget_constant (s : State) {c : Config} {addr : BusAddr} (w : Word) (h : addr.toNat / 4 < 4) :
    s.writeTarget (target c addr) w = s := by
  rw [target_register c rfl (by omega)]
  generalize addr.toNat / 4 = n at h
  interval_cases n <;> rfl

/-- Settles O16: word numbers 0 to 3 name the four constants, which a write leaves. -/
theorem identityAndConfigurationAreConstant : Obligations.IdentityAndConfigurationAreConstant := by
  intro s addr rest hcfg
  refine ⟨fun hp => ⟨_, step_read hp, fun ha => ?id, fun ha => ?cfg0, fun ha => ?cfg1, fun ha => ?cfg2⟩,
    fun w ha hp => ⟨s.draws + 1, ?write⟩⟩
  case id => exact step_read_rdata hp (step_read hp) (target_register _ ha (by decide))
  case cfg0 =>
    rw [step_read_rdata hp (step_read hp) (target_register _ ha (by decide))]
    exact cfg0Word_toNat hcfg
  case cfg1 =>
    rw [step_read_rdata hp (step_read hp) (target_register _ ha (by decide))]
    exact cfg1Word_toNat hcfg
  case cfg2 =>
    rw [step_read_rdata hp (step_read hp) (target_register _ ha (by decide))]
    exact cfg2Word_toNat hcfg
  case write =>
    rw [step_write_target hp rfl, writeTarget_constant _ w ha]
    rfl

/-! ## IN -/

/-- A write to `IN[i]` is noted exactly if a CAR_LUT that reads it runs (70_reset_and_hazards.md R252; log 6). -/
theorem noteRace_raced (s : State) (i : Nat) :
    (s.busy = true ∧ decode s.cmd = .ok .carLut ∧ i < s.snap.a1.toNat →
      ∀ k, k ∈ (s.noteRace i).raced ↔ k = i ∨ k ∈ s.raced) ∧
    (¬(s.busy = true ∧ decode s.cmd = .ok .carLut ∧ i < s.snap.a1.toNat) → (s.noteRace i).raced = s.raced) := by
  simp only [State.noteRace, running_carLut, opCount]
  constructor
  · rintro ⟨hb, hd, hi⟩ k
    by_cases hin : i ∈ s.raced
    · rw [if_neg (by tauto)]
      exact ⟨.inr, fun h => h.elim (· ▸ hin) id⟩
    · rw [if_pos ⟨⟨hb, hd⟩, hi, hin⟩]
      exact List.mem_cons
  · intro hno
    rw [if_neg (by tauto)]

/-- A note of a race touches `raced` only. -/
theorem noteRace_eq (s : State) (i : Nat) : s.noteRace i = { s with raced := (s.noteRace i).raced } := by
  unfold State.noteRace
  split <;> rfl

/-- What a read of `IN[i]` returns, by whether the word is written (93_implementation_defined.md I4). -/
theorem inWord_eq (s : State) (i : Nat) :
    s.inWord i = (Memory.wordAt s.mem (inAddr i)).getD (Config.freeWord s.draws (inAddr i)) := by
  unfold State.inWord
  cases Memory.wordAt s.mem (inAddr i) <;> rfl

/-- Settles O20: the access names `IN[i]`; the word is put, a race is noted or not, and nothing else moves. -/
theorem inWriteAndRead : Obligations.InWriteAndRead := by
  intro s addr i rest ha hi hr
  have hx := target_inBuf s.cfg (addr := addr) (i := i) (by omega) hi hr
  refine ⟨fun w hp => ?write, fun hp => ?read⟩
  case write =>
    have hrace := noteRace_raced (State.putIn { s with pending := rest } i w) i
    refine ⟨_, _, s.draws + 1, ?_, Memory.wordAt_putWord_same s.mem (inAddr i) w,
      Memory.byteAt_putWord_other s.mem (inAddr i) w, hrace.1, hrace.2⟩
    rw [step_write_target hp hx, State.writeTarget, noteRace_eq]
    rfl
  case read =>
    refine ⟨_, step_read_target hp hx rfl, rfl, fun w hw => ?_, fun hw => ?_⟩
    · exact (inWord_eq s i).trans (by rw [inAddr, hw]; rfl)
    · exact (inWord_eq s i).trans (by rw [inAddr, hw]; rfl)

end Sys2Proof.Machine
end

section
/-! The frames: which events change a register, a flag or a store. -/

namespace Sys2Proof.Machine

/-- What a host write to IN leaves, field by field: all but the word, the race record and the model's own counters. -/
theorem inWord_step_eq (s : State) (i : Nat) (w : Word) :
    ((s.popMove.putIn i w).noteRace i).tick = { s with
      mem := Memory.putWord s.mem (inAddr i) w, raced := ((s.popMove.putIn i w).noteRace i).raced,
      draws := s.draws + 1, pending := s.pending.tail } := by
  rw [noteRace_eq]
  rfl

/-! ## ARG, the configuration and the status flags -/

/-- Settles O53: reset and the write to an ARG word are the only events that move ARG. -/
theorem onlyTheHostChangesTheArguments : Obligations.OnlyTheHostChangesTheArguments := by
  intro s t h
  cases stepEvent h with
  | reset rest hp ht => subst ht; exact ⟨rfl, fun _ => .inl ⟨rest, hp⟩⟩
  | argument addr w rest j hp ha ht => subst ht; exact ⟨rfl, fun _ => .inr ⟨addr, w, rest, hp, by omega, by omega⟩⟩
  | inWord addr w rest i hp ha hi hr ht => rw [inWord_step_eq] at ht; subst ht; exact ⟨rfl, absurd rfl⟩
  | finished i u turn hb hd hu ht =>
    subst ht
    have hframe := completed_of_body hu
    exact ⟨hframe.cfg, absurd hframe.args⟩
  | _ => subst_vars; exact ⟨rfl, absurd rfl⟩

/-- A bit written 1 cleared the flag, if the flag changed at all. -/
theorem bit_of_cleared {b x : Bool} (h : (if b then false else x) ≠ x) : b = true := by
  cases b
  · exact absurd rfl h
  · rfl

/-- Settles O54: the events that move no flag are left to the last case. -/
theorem statusChangesOnlyAtItsEvents : Obligations.StatusChangesOnlyAtItsEvents := by
  intro s t h reset issued completed
  cases stepEvent h with
  | reset rest hp ht =>
    have hr : reset := ⟨rest, hp⟩
    exact ⟨fun _ => .inl hr, fun _ => .inl hr, fun _ => .inl hr, fun _ => .inl hr, fun _ => .inl hr⟩
  | status addr w rest hp ha ht =>
    subst ht
    exact ⟨absurd rfl, absurd rfl,
      fun hdone => .inr (.inr (.inr ⟨addr, w, rest, hp, ha, bit_of_cleared hdone⟩)),
      fun hovr => .inr (.inr ⟨addr, w, rest, hp, ha, bit_of_cleared hovr⟩), absurd rfl⟩
  | ctrl addr w rest hp ha ht =>
    subst ht
    exact ⟨absurd rfl, absurd rfl, absurd rfl, absurd rfl, fun _ => .inr ⟨addr, w, rest, hp, ha⟩⟩
  | accept addr w rest hp ha hb ht =>
    subst ht
    have hi : issued ∧ s.busy = false := ⟨⟨addr, w, rest, hp, ha⟩, hb⟩
    exact ⟨fun _ => .inr (.inl hi), fun _ => .inr (.inl hi), fun _ => .inr (.inl hi), absurd rfl, absurd rfl⟩
  | overrun addr w rest hp ha hb ht =>
    subst ht
    exact ⟨absurd rfl, absurd rfl, absurd rfl, fun _ => .inr (.inl ⟨⟨addr, w, rest, hp, ha⟩, hb⟩), absurd rfl⟩
  | inWord addr w rest i hp ha hi hr ht =>
    rw [inWord_step_eq] at ht
    subst ht
    exact ⟨absurd rfl, absurd rfl, absurd rfl, absurd rfl, absurd rfl⟩
  | raised e turn hb ht =>
    subst ht
    have hc : completed := ⟨hb, turn⟩
    exact ⟨fun _ => .inr (.inr hc), fun _ => .inr (.inr hc), fun _ => .inr (.inr (.inl hc)), absurd rfl, absurd rfl⟩
  | finished i u turn hb hd hu ht =>
    subst ht
    have hc : completed := ⟨hb, turn⟩
    have hframe := completed_of_body hu
    exact ⟨fun _ => .inr (.inr hc), fun _ => .inr (.inr hc), fun _ => .inr (.inr (.inl hc)), absurd hframe.cmdOvr,
      absurd hframe.irqEn⟩
  | _ => subst_vars; exact ⟨absurd rfl, absurd rfl, absurd rfl, absurd rfl, absurd rfl⟩

/-! ## The results, the shape and the stores -/

/-- Settles O55: apart from reset only an OK completion moves them, by `body_results` and `body_shape`. -/
theorem onlyTheirCommandsChangeResultsAndShape : Obligations.OnlyTheirCommandsChangeResultsAndShape := by
  intro s t h reset completedOk
  cases stepEvent h with
  | reset rest hp ht => exact ⟨fun _ => .inl ⟨rest, hp⟩, fun _ => .inl ⟨rest, hp⟩⟩
  | finished i u turn hb hd hu ht =>
    subst ht
    have hok : completedOk := ⟨hb, turn, rfl⟩
    refine ⟨fun hres => .inr ⟨hok, ?results⟩, fun hshape => .inr ⟨hok, ?shape⟩⟩
    case results =>
      rcases body_results hu with hi | ⟨h0, h1⟩
      · exact ((running_writesResult s).mp ((running_iff s _).mpr ⟨hb, i, hd, hi⟩)).2
      · exact (hres.elim (absurd h0) (absurd h1))
    case shape =>
      rcases body_shape hu with ⟨rfl, -⟩ | hsame
      · exact hd
      · exact (hshape.elim (absurd hsame.ctLen) (absurd hsame.ctPrns))
  | inWord addr w rest i hp ha hi hr ht =>
    rw [inWord_step_eq] at ht
    subst ht
    exact ⟨(·.elim (absurd rfl) (absurd rfl)), (·.elim (absurd rfl) (absurd rfl))⟩
  | _ =>
    subst_vars
    exact ⟨(·.elim (absurd rfl) (absurd rfl)), (·.elim (absurd rfl) (absurd rfl))⟩

/-- Settles O56: the stores move at an OK completion, by `body_table` and `body_mem`, and at a write to IN. -/
theorem onlyTheirWritersChangeTheStores : Obligations.OnlyTheirWritersChangeTheStores := by
  intro s t h reset completedOk
  cases stepEvent h with
  | reset rest hp ht => exact ⟨fun _ _ => .inl ⟨rest, hp⟩, fun _ _ => .inl ⟨rest, hp⟩⟩
  | finished i u turn hb hd hu ht =>
    subst ht
    have hok : completedOk := ⟨hb, turn, rfl⟩
    refine ⟨fun k hk => .inr ⟨hok, ?cells⟩, fun a ha => .inr (.inl ⟨hok, ?bytes⟩)⟩
    case cells =>
      rcases body_table hu with (rfl | rfl) | hsame
      · exact .inl hd
      · exact .inr hd
      · exact absurd (congrArg (Memory.byteAt · k) hsame) hk
    case bytes =>
      rcases body_mem hu a with ⟨hi, hlow, hhigh⟩ | hsame
      · exact ⟨hlow, hhigh, ((running_writesOut s).mp ((running_iff s _).mpr ⟨hb, i, hd, hi⟩)).2⟩
      · exact absurd hsame ha
  | inWord addr w rest i hp haddr hi hr ht =>
    rw [inWord_step_eq] at ht
    subst ht
    refine ⟨fun _ => absurd rfl, fun a ha => .inr (.inr ⟨addr, w, rest, hp, ?_⟩)⟩
    have hin : ¬(a < inAddr i ∨ inAddr i + 4 ≤ a) := fun hout => ha (Memory.byteAt_putWord_other _ _ _ _ hout)
    simp only [inAddr] at hin
    omega
  | _ => subst_vars; exact ⟨fun _ => absurd rfl, fun _ => absurd rfl⟩

/-! ## TABLE_VALID -/

/-- A row found is a row of the map. -/
theorem lookupOpcode_mem {opc : BitVec 8} {rows : List OpcodeRow} {i : Instr} (h : lookupOpcode opc rows = .ok i) :
    ⟨opc, i⟩ ∈ rows := by
  induction rows with
  | nil => cases h
  | cons row rows ih =>
    simp only [lookupOpcode] at h
    split at h
    case isTrue hopc => cases h; subst hopc; exact List.mem_cons_self
    case isFalse => exact List.mem_cons_of_mem _ (ih h)

/-- Every row's word is its opcode, zero-extended (30_encoding.md R94). -/
theorem opcodeMap_encode : ∀ row ∈ opcodeMap, encode row.instr = row.opc.zeroExtend 32 := by decide

/-- A word whose reserved bits are 0 is its opcode, zero-extended (30_encoding.md R90). -/
theorem eq_opcOf_of_rsvOf {w : Word} (h : rsvOf w = 0) : w = (opcOf w).zeroExtend 32 := by
  have hrsv : w.toNat / 256 % 2 ^ 24 = 0 := by
    simpa [rsvOf, BitVec.extractLsb'_toNat, Nat.shiftRight_eq_div_pow] using congrArg BitVec.toNat h
  apply BitVec.eq_of_toNat_eq
  simp only [opcOf, BitVec.truncate_eq_setWidth, BitVec.toNat_setWidth, BitVec.extractLsb'_toNat]
  omega

/-- Decoding and encoding agree (30_encoding.md R94). -/
theorem decode_eq_ok_iff (w : Word) (i : Instr) : decode w = .ok i ↔ w = encode i := by
  constructor
  · intro h
    unfold decode at h
    split at h
    case isTrue => cases h
    case isFalse hrsv =>
      rw [eq_opcOf_of_rsvOf (not_not.mp hrsv)]
      exact (opcodeMap_encode _ (lookupOpcode_mem h)).symm
  · rintro rfl
    cases i <;> rfl

/-- What a step does to TABLE_VALID (10_state.md R34): reset and the acceptance of CT_WRITE and CT_BUILD clear it, the
OK end of CT_BUILD sets it, and any other step leaves it. -/
theorem step_tableValid {s t : State} (h : step s = .next t) :
    (t.tableValid = false ∧ ∃ rest, s.pending = .reset :: rest) ∨
    (t.tableValid = false ∧ ∃ addr w rest, s.pending = .write addr w :: rest ∧ addr.toNat / 4 = 0x06 ∧
      s.busy = false ∧ (decode w = .ok .ctWrite ∨ decode w = .ok .ctBuild)) ∨
    (t.tableValid = true ∧ s.busy = true ∧ decode s.cmd = .ok .ctBuild ∧ t.err = .ok ∧ s.EngineTurnNext) ∨
    t.tableValid = s.tableValid := by
  cases stepEvent h with
  | reset rest hp ht => subst ht; exact .inl ⟨rfl, rest, hp⟩
  | accept addr w rest hp ha hb ht =>
    subst ht
    by_cases hw : w = 0x00000001#32 ∨ w = 0x00000002#32
    · refine .inr (.inl ⟨if_pos hw, addr, w, rest, hp, ha, hb, ?_⟩)
      exact hw.imp (decode_eq_ok_iff w _).mpr (decode_eq_ok_iff w _).mpr
    · exact .inr (.inr (.inr (if_neg hw)))
  | finished i u turn hb hd hu ht =>
    subst ht
    rcases body_shape hu with ⟨rfl, hset⟩ | hsame
    · exact .inr (.inr (.inl ⟨hset, hb, hd, rfl, turn⟩))
    · exact .inr (.inr (.inr hsame.tableValid))
  | inWord addr w rest i hp ha hi hr ht => rw [inWord_step_eq] at ht; subst ht; exact .inr (.inr (.inr rfl))
  | _ => subst_vars; exact .inr (.inr (.inr rfl))

/-- The commands that read the table raise TABLE_INVALID first (60_exceptions.md R212). -/
theorem body_tableInvalid {i : Instr} {s : State} (h : s.tableValid = false)
    (hi : i = .ctRead ∨ i = .ctReadUnchecked ∨ i = .codeSample) : bodyOf i s = .error .tableInvalid := by
  rcases hi with rfl | rfl | rfl <;> exact if_pos h

/-- An accepted CT_WRITE or CT_BUILD clears TABLE_VALID (10_state.md R34). -/
theorem accept_clears_tableValid (s : State) {w : Word} (h : decode w = .ok .ctWrite ∨ decode w = .ok .ctBuild) :
    (s.accept w).tableValid = false := by
  simp only [decode_eq_ok_iff] at h
  exact if_pos h

/-- Settles O52: the raise by `body_tableInvalid`, the events by `step_tableValid`. -/
theorem onlyBuildMakesTheTableReachable : Obligations.OnlyBuildMakesTheTableReachable := by
  refine ⟨fun s t i hvalid hi h => ?_, fun s t h => ⟨fun rest hp => ?_, fun addr w rest hp ha hb hw => ?_, fun h0 h1 => ?_,
    fun h1 h0 => ?_⟩⟩
  · rw [exec_of_error (body_tableInvalid hvalid hi)] at h
    cases h
    exact raised_complete s .tableInvalid
  · rw [step_reset hp] at h
    cases h
    rfl
  · rw [step_write_target hp (target_cmd _ ha), State.writeTarget, State.issue, if_neg (by simp [hb])] at h
    cases h
    exact accept_clears_tableValid _ hw
  · rcases step_tableValid h with ⟨hclear, -⟩ | ⟨hclear, -⟩ | ⟨-, hset⟩ | hsame
    · exact absurd (h1.symm.trans hclear) (by decide)
    · exact absurd (h1.symm.trans hclear) (by decide)
    · exact hset
    · exact absurd (h1.symm.trans (hsame.trans h0)) (by decide)
  · rcases step_tableValid h with ⟨-, hreset⟩ | ⟨-, hissued⟩ | ⟨hset, -⟩ | hsame
    · exact .inl hreset
    · exact .inr hissued
    · exact absurd (hset.symm.trans h0) (by decide)
    · exact absurd (h1.symm.trans (hsame.symm.trans h0)) (by decide)

/-! ## The live arguments -/

/-- `s` with the live argument registers `x`. -/
def State.setArgs (s : State) (x : Args) : State := { s with args := x }

/-- The live argument registers `x` put into what an execution yields. -/
def Execution.setArgs (y : Execution) (x : Args) : Execution :=
  match y with
  | .ok t => .ok (t.setArgs x)
  | .error e => .error e

theorem Execution.setArgs_ok (t : State) (x : Args) : Execution.setArgs (.ok t) x = .ok (t.setArgs x) := rfl

theorem Execution.setArgs_error (e : StatusCode) (x : Args) : Execution.setArgs (.error e) x = .error e := rfl

theorem Execution.setArgs_ite (p : Prop) [Decidable p] (y z : Execution) (x : Args) :
    Execution.setArgs (if p then y else z) x = if p then Execution.setArgs y x else Execution.setArgs z x :=
  apply_ite (Execution.setArgs · x) p y z

theorem noteUnwritten_setArgs (s : State) (x : Args) (u : Bool) :
    (s.noteUnwritten u).setArgs x = (s.setArgs x).noteUnwritten u := by
  cases u <;> rfl

theorem readChip_setArgs (s : State) (x : Args) (r c : Nat) : (s.readChip r c).setArgs x = (s.setArgs x).readChip r c :=
  noteUnwritten_setArgs (s.setResults _ _) x _

theorem checkCount_setArgs (s : State) (x : Args) (y : Execution) :
    Execution.setArgs (checkCount s y) x = checkCount (s.setArgs x) (Execution.setArgs y x) :=
  Execution.setArgs_ite _ _ _ _

/-- No command's body reads or writes ARG0 to ARG7 (20_memory.md R72). -/
theorem body_setArgs (i : Instr) (s : State) (x : Args) :
    Execution.setArgs (bodyOf i s) x = bodyOf i (s.setArgs x) := by
  cases i with
  | nop => rfl
  | ctWrite => exact Execution.setArgs_ite _ _ _ _
  | ctBuild => exact Execution.setArgs_ite _ _ _ _
  | ctRead =>
    simp only [bodyOf, ctReadBody, Execution.setArgs_ite, Execution.setArgs_ok, Execution.setArgs_error,
      readChip_setArgs]
    rfl
  | ctReadUnchecked =>
    simp only [bodyOf, ctReadUncheckedBody, Execution.setArgs_ite, Execution.setArgs_ok, Execution.setArgs_error,
      readChip_setArgs]
    rfl
  | codeSample =>
    simp only [bodyOf, codeSampleBody, Execution.setArgs_ite, Execution.setArgs_ok, Execution.setArgs_error,
      checkCount_setArgs, noteUnwritten_setArgs]
    rfl
  | codePhase =>
    simp only [bodyOf, codePhaseBody, Execution.setArgs_ite, Execution.setArgs_ok, Execution.setArgs_error]
    rfl
  | carGen => exact checkCount_setArgs s x _
  | carPhases => exact checkCount_setArgs s x _
  | carLut => exact checkCount_setArgs s x _
  | carEval => rfl
  | carRomRead => exact Execution.setArgs_ite _ _ _ _

/-- Neither does the end of a command (60_exceptions.md R211). -/
theorem conclude_setArgs (s : State) (x : Args) (y : Execution) :
    (s.conclude y).setArgs x = (s.setArgs x).conclude (Execution.setArgs y x) := by
  cases y <;> rfl

/-- Settles O58: replacing the live arguments commutes with a command's body and with its end. -/
theorem liveArgumentsDoNotReachTheCommand : Obligations.LiveArgumentsDoNotReachTheCommand := by
  intro i s t x h
  calc exec i (s.setArgs x)
      = .next ((s.setArgs x).conclude (bodyOf i (s.setArgs x))) := exec_eq i _
    _ = .next ((s.conclude (bodyOf i s)).setArgs x) := by rw [conclude_setArgs, body_setArgs]
    _ = .next (t.setArgs x) := by rw [exec_next h]

end Sys2Proof.Machine
end

section
/-! The memory map as the host meets it: every step goes on, a read changes nothing, and an address that takes no
write ignores one. -/

namespace Sys2Proof.Machine

/-! ## Steps that go on -/

/-- The engine's turn, busy or idle, has a next state: an illegal word and a raise complete too
(60_exceptions.md R211). -/
theorem engineTurn_next (s : State) : ∃ t, engineTurn s = .next t := by
  unfold engineTurn
  split
  · exact ⟨_, engineStep_eq s⟩
  · exact ⟨s, rfl⟩

/-- Every move has a next state, whatever the address: there is no bus error (20_memory.md R65). -/
theorem runMove_next (m : Move) (s : State) : ∃ t, runMove m s = .next t := by
  cases m with
  | read addr => exact ⟨_, rfl⟩
  | write addr w => exact ⟨_, rfl⟩
  | reset => exact ⟨_, rfl⟩
  | engine => exact engineTurn_next s

/-- Settles O7: a step is the oldest move to come, or the engine's turn where none is left. -/
theorem everyStepAnswersANextState : Obligations.EveryStepAnswersANextState := by
  intro s
  unfold step
  split
  · exact engineTurn_next s
  · exact runMove_next _ _

/-! ## Reads -/

/-- Settles O14: `hostRead` writes the word returned and the step number alone. -/
theorem hostReadsHaveNoSideEffect : Obligations.HostReadsHaveNoSideEffect :=
  fun _ _ _ hp => ⟨_, _, step_read hp⟩

/-! ## Reserved and read-only addresses -/

/-- Only the words of STATUS, CTRL, CMD, ARG and IN take a write (20_memory.md R64, R65). -/
theorem writeTarget_ignored (s : State) {c : Config} {addr : BusAddr} (w : Word)
    (hcontrol : ¬(0x04 ≤ addr.toNat / 4 ∧ addr.toNat / 4 ≤ 0x06))
    (harg : ¬(0x08 ≤ addr.toNat / 4 ∧ addr.toNat / 4 < 0x10))
    (hin : ¬(0x4000 ≤ addr.toNat / 4 ∧ addr.toNat / 4 < 0x8000 ∧ addr.toNat / 4 < 0x4000 + c.bufDepth)) :
    s.writeTarget (target c addr) w = s := by
  cases hx : target c addr with
  | status => have := target_status_inv hx; omega
  | ctrl => have := target_ctrl_inv hx; omega
  | cmd => have := target_cmd_inv hx; omega
  | arg j => have := target_arg_inv hx; omega
  | inBuf i => have := target_inBuf_inv hx; omega
  | _ => rfl

/-- Settles O15: a hole names nothing and CMD reads 0, by the map; no hole and no read-only word takes a write, by
`writeTarget_ignored`. -/
theorem reservedAndReadOnlyAddresses : Obligations.ReservedAndReadOnlyAddresses := by
  intro s addr rest hdepth off hole readOnly
  refine ⟨fun ha hp => ?read, fun w ha hp => ⟨s.draws + 1, ?write⟩⟩
  case read =>
    rcases ha with hhole | hcmd
    · have hx : target s.cfg addr = .reserved := target_reserved _ (by omega) (by omega) (by omega)
      exact step_read_target hp hx rfl
    · have hx : target s.cfg addr = .cmd := target_cmd _ (by omega)
      exact step_read_target hp hx rfl
  case write =>
    rw [step_write_target hp rfl, writeTarget_ignored _ w (by omega) (by omega) (by omega)]
    rfl

end Sys2Proof.Machine
end

section
/-! The encoding of commands (30_encoding.md): the legal words are the words of commands, an illegal word is rejected
by name, and the engine's turn answers one with ILLEGAL_CMD. -/

namespace Sys2Proof.Machine

/-! ## Decoding and encoding -/

/-- Settles O2: the map gives each opcode one command, and RSV = 0 leaves the opcode alone in the word. -/
theorem decodeEncodeAgree : Obligations.DecodeEncodeAgree := decode_eq_ok_iff

theorem decode_encode (i : Instr) : decode (encode i) = .ok i := (decode_eq_ok_iff _ _).mpr rfl

/-- Settles O1: each word is its command's `encode`. -/
theorem opcodeMapDecodes : Obligations.OpcodeMapDecodes :=
  ⟨decode_encode .nop, decode_encode .ctWrite, decode_encode .ctBuild, decode_encode .ctRead,
    decode_encode .ctReadUnchecked, decode_encode .codeSample, decode_encode .codePhase, decode_encode .carGen,
    decode_encode .carPhases, decode_encode .carLut, decode_encode .carEval, decode_encode .carRomRead⟩

/-! ## Legal words -/

/-- Up to the greatest opcode, the words in R95's ranges are the words of the map's rows (30_encoding.md R94, R95). -/
theorem legalCommand_listed : ∀ n < 0x25, legalCommand (BitVec.ofNat 32 n) = true →
    ∃ row ∈ opcodeMap, BitVec.ofNat 32 n = encode row.instr := by decide

/-- The legal words are the words of the commands (30_encoding.md R94, R95). -/
theorem legalCommand_iff_encode (w : Word) : legalCommand w = true ↔ ∃ i, w = encode i := by
  constructor
  · intro h
    have hmax : w.toNat < 0x25 := by
      simp only [legalCommand, Bool.or_eq_true, Bool.and_eq_true, decide_eq_true_eq] at h
      omega
    have hw : BitVec.ofNat 32 w.toNat = w := by simp
    obtain ⟨row, -, hrow⟩ := legalCommand_listed w.toNat hmax (hw.symm ▸ h)
    exact ⟨row.instr, hw.symm.trans hrow⟩
  · rintro ⟨i, rfl⟩
    cases i <;> rfl

/-- A word decodes exactly if it is legal (30_encoding.md R95). -/
theorem decodes_iff_legalCommand (w : Word) : (∃ i, decode w = .ok i) ↔ legalCommand w = true := by
  rw [legalCommand_iff_encode]
  exact exists_congr (decode_eq_ok_iff w)

/-! ## Illegal words -/

/-- RSV is the word without its low byte (30_encoding.md R90). -/
theorem rsvOf_eq_zero_iff (w : Word) : rsvOf w = 0 ↔ w.toNat / 256 = 0 := by
  rw [← BitVec.toNat_inj]
  simp only [rsvOf, BitVec.extractLsb'_toNat, Nat.shiftRight_eq_div_pow, BitVec.ofNat_eq_ofNat, BitVec.toNat_ofNat]
  omega

/-- The map turns an opcode down for one reason only: it is not listed. -/
theorem lookupOpcode_error {opc : BitVec 8} {rows : List OpcodeRow} {e : DecodeError}
    (h : lookupOpcode opc rows = .error e) : e = .unknownOpcode := by
  induction rows with
  | nil => cases h; rfl
  | cons row rows ih =>
    simp only [lookupOpcode] at h
    split at h
    case isTrue => cases h
    case isFalse => exact ih h

/-- A word is rejected for its reserved bits, or else for its opcode (30_encoding.md R95). -/
theorem decode_error {w : Word} {e : DecodeError} (h : decode w = .error e) :
    e = if w.toNat / 256 = 0 then .unknownOpcode else .reservedBits := by
  unfold decode at h
  split at h
  case isTrue hrsv => cases h; exact (if_neg (mt (rsvOf_eq_zero_iff w).mpr hrsv)).symm
  case isFalse hrsv => rw [if_pos ((rsvOf_eq_zero_iff w).mp (not_not.mp hrsv))]; exact lookupOpcode_error h

/-- An illegal word is rejected by name (30_encoding.md R95). -/
theorem decode_of_illegal {w : Word} (h : legalCommand w = false) :
    decode w = .error (if w.toNat / 256 = 0 then .unknownOpcode else .reservedBits) := by
  cases hd : decode w with
  | ok i => exact absurd ((decodes_iff_legalCommand w).mp ⟨i, hd⟩) (by simp [h])
  | error e => rw [decode_error hd]

/-- A word with a reserved bit set is illegal (30_encoding.md R95). -/
theorem illegal_of_reserved {w : Word} (h : w.toNat / 256 ≠ 0) : legalCommand w = false := by
  simp only [legalCommand, Bool.or_eq_false_iff, Bool.and_eq_false_iff, decide_eq_false_iff_not]
  omega

/-- Settles O3: a word decodes if it is legal, and an illegal one is rejected as `decode_of_illegal` says. -/
theorem illegalWordsAreRejectedByName : Obligations.IllegalWordsAreRejectedByName := by
  intro w
  refine ⟨decodes_iff_legalCommand w, fun hrsv => ?reserved, fun hrsv hillegal => ?unknown⟩
  case reserved => rw [decode_of_illegal (illegal_of_reserved hrsv), if_neg hrsv]
  case unknown => rw [decode_of_illegal hillegal, if_pos hrsv]

/-! ## The engine's turn on an illegal word -/

/-- With no move to come, the step is the engine's turn (40_engine.md R125). -/
theorem step_of_noMove {s : State} (h : s.pending = []) : step s = engineTurn s := by
  simp only [step, h]

/-- With the engine's move the oldest one to come, the step takes it (20_memory.md R70). -/
theorem step_of_engineMove {s : State} {rest : List Move} (h : s.pending = .engine :: rest) :
    step s = engineTurn { s with pending := rest } := by
  simp only [step, h, runMove]

/-- With BUSY = 1 the engine's turn ends the running command (40_engine.md R122). -/
theorem engineTurn_of_busy {s : State} (h : s.busy = true) : engineTurn s = .next (s.conclude (engineBody s)) := by
  rw [← engineStep_eq]; exact if_pos h

/-- The execution of an illegal word is ILLEGAL_CMD (40_engine.md R126). -/
theorem engineBody_of_illegal {s : State} (h : legalCommand s.cmd = false) : engineBody s = .error .illegalCmd := by
  simp only [engineBody, decode_of_illegal h]

theorem engineTurn_raises_of_illegal {s : State} (hbusy : s.busy = true) (h : legalCommand s.cmd = false) :
    ∃ t, engineTurn s = .next t ∧ Raised s t .illegalCmd := by
  refine ⟨s.complete .illegalCmd, ?_, raised_complete s _⟩
  rw [engineTurn_of_busy hbusy, engineBody_of_illegal h]
  rfl

/-- Settles O5: either form of the step is the engine's turn, which raises. -/
theorem illegalCommandRaises : Obligations.IllegalCommandRaises := by
  intro s hbusy hillegal
  refine ⟨fun hp => ?_, fun rest hp => ?_⟩
  · rw [step_of_noMove hp]
    exact engineTurn_raises_of_illegal hbusy hillegal
  · rw [step_of_engineMove hp]
    exact engineTurn_raises_of_illegal hbusy hillegal

end Sys2Proof.Machine
end

section
/-! The engine (40_engine.md): its turn, what a host read returns while a command runs, the acceptance of a command,
and that every command ends. -/

namespace Sys2Proof.Machine

/-! ## The engine's turn -/

/-- With BUSY = 1 the engine's turn is `exec` of the command the accepted word decodes to (40_engine.md R126). -/
theorem engineTurn_of_decode {s : State} {i : Instr} (hbusy : s.busy = true) (hd : decode s.cmd = .ok i) :
    engineTurn s = exec i s := by
  simp only [engineTurn_of_busy hbusy, engineBody, hd, exec_eq]

/-- Settles O4: either form of the step is the engine's turn. -/
theorem stepRunsTheDecodedCommand : Obligations.StepRunsTheDecodedCommand :=
  fun _ _ hbusy hd =>
    ⟨fun hp => (step_of_noMove hp).trans (engineTurn_of_decode hbusy hd),
      fun _ hp => (step_of_engineMove hp).trans (engineTurn_of_decode hbusy hd)⟩

/-- Settles O24: the body of NOP ends OK in the state it starts from. -/
theorem nopCompletes : Obligations.NopCompletes :=
  fun _ => ⟨_, exec_of_ok rfl, completed_of_body (i := .nop) rfl, ⟨rfl, rfl⟩, ⟨rfl, rfl, rfl⟩, fun _ => rfl,
    fun _ => rfl, rfl⟩

/-! ## Acceptance -/

/-- Settles O9: the write names CMD, and an idle RNCO accepts the word. -/
theorem commandWriteIsAccepted : Obligations.CommandWriteIsAccepted := by
  intro s addr w rest ha hp hidle
  have hissue : State.issue { s with pending := rest } w = State.accept { s with pending := rest } w :=
    if_neg (by simp [hidle])
  refine ⟨State.tick (State.accept { s with pending := rest } w), ?_, rfl, rfl, rfl, rfl, rfl, fun hw => if_pos hw,
    fun hw => if_neg hw, rfl, rfl, rfl, rfl, ⟨rfl, rfl⟩, rfl, rfl, fun _ => rfl, fun _ => rfl, rfl, rfl, rfl⟩
  rw [step_write_target hp (target_cmd _ ha), State.writeTarget, hissue]

/-- Settles O10: the write names CMD, and a busy RNCO drops the word. -/
theorem commandWriteWhileBusyIsDropped : Obligations.CommandWriteWhileBusyIsDropped := by
  intro s addr w rest ha hp hbusy
  refine ⟨s.draws + 1, ?_⟩
  rw [step_write_target hp (target_cmd _ ha), State.writeTarget, State.issue, if_pos hbusy]
  rfl

/-! ## Reads while a command runs -/

/-- A read of `OUT[i]` is a fresh draw exactly under a command that writes OUT, below its count
(40_engine.md R124). -/
theorem outBusy_iff (s : State) (i : Nat) :
    s.outBusy i = true ↔ s.busy = true ∧ i < s.snap.a1.toNat ∧
      (decode s.cmd = .ok .codeSample ∨ decode s.cmd = .ok .carGen ∨ decode s.cmd = .ok .carPhases ∨
        decode s.cmd = .ok .carLut) := by
  rw [State.outBusy, Bool.and_eq_true, running_writesOut, decide_eq_true_eq, and_assoc,
    and_comm (a := i < s.snap.a1.toNat)]
  rfl

/-- A written word of OUT is what it holds (10_state.md R38). -/
theorem outWord_of_written {s : State} {i : Nat} {w : Word} (h : Memory.wordAt s.mem (outAddr i) = some w) :
    s.outWord i = w := by
  simp only [State.outWord, h]

/-- Settles O18: the read names `OUT[i]`, which is a fresh draw exactly if `outBusy` says so. -/
theorem outReadsExactExceptUnderAnOutCommand : Obligations.OutReadsExactExceptUnderAnOutCommand := by
  intro s addr i rest ha hi hdepth hp drawn
  have hx : target s.cfg addr = .outBuf i := target_outBuf _ (by omega) hi (by omega)
  by_cases hb : s.outBusy i = true
  case pos =>
    have hdrawn : drawn := (outBusy_iff s i).mp hb
    exact ⟨_, step_read_target hp hx (if_pos hb), fun _ => ⟨rfl, rfl⟩, fun hno => absurd hdrawn hno⟩
  case neg =>
    have hno : ¬drawn := mt (outBusy_iff s i).mpr hb
    exact ⟨_, step_read_target hp hx (if_neg hb), fun hdrawn => absurd hdrawn hno,
      fun _ => ⟨rfl, fun w hw => outWord_of_written hw⟩⟩

/-- What a step on a host read returns and does to the step number, its target and the word read known. -/
theorem step_read_result {s t : State} {addr : BusAddr} {rest : List Move} {x : Target} {v : Word} {fresh : Bool}
    (hp : s.pending = .read addr :: rest) (ht : step s = .next t) (hx : target s.cfg addr = x)
    (hv : s.readTarget x = (v, fresh)) : t.rdata = v ∧ t.draws = if fresh then s.draws + 1 else s.draws := by
  rw [step_read_target hp hx hv] at ht
  cases ht
  exact ⟨rfl, rfl⟩

/-- Settles O19: the read names the register, which is a fresh draw exactly under a command that writes RESULT. -/
theorem resultReadsExactExceptUnderAResultCommand : Obligations.ResultReadsExactExceptUnderAResultCommand := by
  intro s addr rest hp drawn
  have hrunning : s.running writesResult = true ↔ drawn := running_writesResult s
  have hstep := step_read hp
  refine ⟨_, hstep, fun ha hd => ?_, fun ha hno => ?_, fun ha hd => ?_, fun ha hno => ?_⟩
  · exact step_read_result hp hstep (target_result0 _ ha) (if_pos (hrunning.mpr hd))
  · exact step_read_result hp hstep (target_result0 _ ha) (if_neg (mt hrunning.mp hno))
  · exact step_read_result hp hstep (target_result1 _ ha) (if_pos (hrunning.mpr hd))
  · exact step_read_result hp hstep (target_result1 _ ha) (if_neg (mt hrunning.mp hno))

/-! ## Every command ends -/

/-- The engine's step completes the command, whatever it is (40_engine.md R122). -/
theorem engineBody_completed (s : State) : ∃ e, Completed s (s.conclude (engineBody s)) e := by
  rcases engine_cases s with ⟨e, -, hc⟩ | ⟨i, u, -, hu, hc⟩
  · exact ⟨e, hc ▸ (raised_complete s e).completed⟩
  · exact ⟨.ok, hc ▸ completed_of_body hu⟩

/-- After the engine's turn no command runs, and the moves to come are as before (40_engine.md R122, 60_exceptions.md
R225). -/
theorem engineTurn_idle {s t : State} (h : engineTurn s = .next t) : t.busy = false ∧ t.pending = s.pending := by
  cases hb : s.busy with
  | false =>
    rw [engineTurn, if_neg (by simp [hb])] at h
    cases h
    exact ⟨hb, rfl⟩
  | true =>
    rw [engineTurn_of_busy hb] at h
    cases h
    obtain ⟨e, hcompleted⟩ := engineBody_completed s
    exact ⟨hcompleted.busy, hcompleted.pending⟩

/-- A host write adds and takes no move. -/
theorem writeTarget_pending (s : State) (x : Target) (w : Word) : (s.writeTarget x w).pending = s.pending := by
  cases x with
  | cmd => exact (apply_ite State.pending _ _ _).trans (ite_self _)
  | inBuf i => exact State.noteRace_pending _ i
  | _ => rfl

/-- No move adds or takes another. -/
theorem runMove_pending {m : Move} {s t : State} (h : runMove m s = .next t) : t.pending = s.pending := by
  cases m with
  | read addr => cases h; rfl
  | write addr w => cases h; exact writeTarget_pending s _ w
  | reset => cases h; rfl
  | engine => exact (engineTurn_idle h).2

/-- A run goes on from the state its first step answers. -/
theorem run_of_step {s t : State} (h : step s = .next t) (k : Nat) :
    Host.Core.run Sys2Proof.core (k + 1) s = Host.Core.run Sys2Proof.core k t := by
  have hcore : Sys2Proof.core.step s = .next t := h
  simp only [Host.Core.run, hcore]

/-- Settles O8, by induction on the moves to come: each step takes one, and the step after the last is the engine's
turn. -/
theorem everyAcceptedCommandCompletes : Obligations.EveryAcceptedCommandCompletes := by
  intro s
  induction hp : s.pending generalizing s with
  | nil =>
    obtain ⟨t, ht⟩ := engineTurn_next s
    obtain ⟨hbusy, hpending⟩ := engineTurn_idle ht
    exact ⟨t, run_of_step ((step_of_noMove hp).trans ht) 0, hbusy, hpending.trans hp⟩
  | cons m rest ih =>
    obtain ⟨t, ht⟩ := runMove_next m { s with pending := rest }
    have hstep : step s = .next t := by simpa only [step, hp] using ht
    obtain ⟨u, hrun, hu⟩ := ih t (runMove_pending ht)
    exact ⟨u, (run_of_step hstep _).trans hrun, hu⟩

end Sys2Proof.Machine
end

section
/-! Restartability (40_engine.md R130): two executions of one command that agree on what it reads raise the same code
or write the same words. -/

namespace Sys2Proof.Machine

/-- Two states hold the same words where command `i` with count `n` writes: RESULT0 and RESULT1, or OUT below the
count. -/
structure SameWrites (i : Instr) (n : Nat) (u u' : State) : Prop where
  results : writesResult i = true → u.result0 = u'.result0 ∧ u.result1 = u'.result1
  outs : writesOut i = true → ∀ j, j < n → Memory.wordAt u.mem (outAddr j) = Memory.wordAt u'.mem (outAddr j)

/-- Two executions of command `i` with count `n` agree: both raise one code, or both end OK with the same writes. -/
inductive Execution.Agree (i : Instr) (n : Nat) : Execution → Execution → Prop
  | raised (e : StatusCode) (he : e ≠ .ok) : Agree i n (.error e) (.error e)
  | finished (u u' : State) (h : SameWrites i n u u') : Agree i n (.ok u) (.ok u')

/-! ## Agreement of the writes -/

theorem sameWrites_of_noWrites {i : Instr} (hres : writesResult i = false) (hout : writesOut i = false) (n : Nat)
    (u u' : State) : SameWrites i n u u' :=
  ⟨fun h => absurd h (by simp [hres]), fun h => absurd h (by simp [hout])⟩

theorem sameWrites_setResults {i : Instr} (hout : writesOut i = false) (n : Nat) (s s' : State) (r0 r1 : Word) :
    SameWrites i n (s.setResults r0 r1) (s'.setResults r0 r1) :=
  ⟨fun _ => ⟨rfl, rfl⟩, fun h => absurd h (by simp [hout])⟩

theorem sameWrites_putOuts {i : Instr} (hres : writesResult i = false) {n : Nat} {f f' : Nat → Word}
    (hf : ∀ j, j < n → f j = f' j) (s s' : State) : SameWrites i n (s.putOuts n f) (s'.putOuts n f') := by
  refine ⟨fun h => absurd h (by simp [hres]), fun _ j hj => ?_⟩
  simp only [State.putOuts, wordAt_writeOuts _ _ _ _ hj, hf j hj]

/-- The fault record is none of a command's writes. -/
theorem SameWrites.noteUnwritten {i : Instr} {n : Nat} {u u' : State} (h : SameWrites i n u u') (b b' : Bool) :
    SameWrites i n (u.noteUnwritten b) (u'.noteUnwritten b') := by
  constructor
  · simpa using h.results
  · simpa using h.outs

/-! ## Agreement of the checks -/

/-- One check made on both sides: agreement of its two branches. -/
theorem Execution.Agree.ite {i : Instr} {n : Nat} {p p' : Prop} [Decidable p] [Decidable p'] {x x' y y' : Execution}
    (hp : p ↔ p') (hx : p → Agree i n x x') (hy : ¬p → Agree i n y y') :
    Agree i n (if p then x else y) (if p' then x' else y') := by
  by_cases h : p
  · rw [if_pos h, if_pos (hp.mp h)]; exact hx h
  · rw [if_neg h, if_neg (mt hp.mpr h)]; exact hy h

/-- A check that raises on both sides, and agreement past it. -/
theorem Execution.Agree.check {i : Instr} {n : Nat} {p p' : Prop} [Decidable p] [Decidable p'] {y y' : Execution}
    (hp : p ↔ p') {e : StatusCode} (he : e ≠ .ok) (hy : ¬p → Agree i n y y') :
    Agree i n (if p then .error e else y) (if p' then .error e else y') :=
  .ite hp (fun _ => .raised e he) hy

/-! ## Agreement of the words written -/

/-- A written cell gives one chip. -/
theorem chipAt_congr {s s' : State} (hcells : SameCells s s') {r c : Nat} (hwritten : s.cell r c ≠ none) :
    s.chipAt r c = s'.chipAt r c := by
  obtain ⟨b, hb⟩ := Option.ne_none_iff_exists'.mp hwritten
  have hb' : s'.cell r c = some b := (hcells _).trans hb
  simp only [State.chipAt, hb, hb']

/-- A written cell gives one sample word (42_code_sampler.md R162). -/
theorem sampleWord_congr {s s' : State} (hsnap : s'.snap = s.snap) (hlen : s'.ctLen = s.ctLen)
    (hcells : SameCells s s') {j : Nat} (hwritten : s.cell (s.sampleRow j) (opSampleColumn s.snap) ≠ none) :
    s.sampleWord j = s'.sampleWord j := by
  have hrow : s'.sampleRow j = s.sampleRow j := by simp only [State.sampleRow, hsnap, hlen]
  simp only [State.sampleWord, hrow, hsnap, chipAt_congr hcells hwritten]

/-- A written IN word that was not raced gives one carrier word (43_carrier.md R189). -/
theorem lutWord_congr {s s' : State} (hcfg : s'.cfg = s.cfg) {j : Nat} (hraced : s.raced = []) (hraced' : s'.raced = [])
    (hword : Memory.wordAt s.mem (inAddr j) = Memory.wordAt s'.mem (inAddr j))
    (hwritten : Memory.wordAt s.mem (inAddr j) ≠ none) : s.lutWord j = s'.lutWord j := by
  obtain ⟨w, hw⟩ := Option.ne_none_iff_exists'.mp hwritten
  simp only [State.lutWord, hraced, hraced', List.not_mem_nil, if_false, inWord_eq, ← hword, hw, Option.getD_some, hcfg]

/-! ## The commands -/

section
variable {s s' : State} (hcfg : s'.cfg = s.cfg) (hsnap : s'.snap = s.snap)
include hcfg hsnap

/-- The count check agrees on equal configuration and snapshot (40_engine.md R128). -/
theorem checkCount_agree {i : Instr} {n : Nat} {x x' : Execution} (h : Execution.Agree i n x x') :
    Execution.Agree i n (checkCount s x) (checkCount s' x') :=
  .check (by rw [hcfg, hsnap]) (by decide) fun _ => h

/-- The commands that read neither the table nor IN agree on equal configuration and snapshot. -/
theorem body_agree_of_noReads {i : Instr}
    (htable : i ≠ .codeSample ∧ i ≠ .ctRead ∧ i ≠ .ctReadUnchecked) (hlut : i ≠ .carLut) :
    Execution.Agree i (opCount s.snap) (bodyOf i s) (bodyOf i s') := by
  obtain ⟨hsample, hread, hunchecked⟩ := htable
  cases i with
  | codeSample => exact absurd rfl hsample
  | ctRead => exact absurd rfl hread
  | ctReadUnchecked => exact absurd rfl hunchecked
  | carLut => exact absurd rfl hlut
  | nop => exact .finished _ _ (sameWrites_of_noWrites rfl rfl _ _ _)
  | ctWrite =>
    exact .check (by rw [hcfg, hsnap]) (by decide) fun _ => .finished _ _ (sameWrites_of_noWrites rfl rfl _ _ _)
  | ctBuild =>
    exact .check (by rw [hcfg, hsnap]) (by decide) fun _ => .finished _ _ (sameWrites_of_noWrites rfl rfl _ _ _)
  | codePhase =>
    simp only [bodyOf, codePhaseBody, hsnap]
    exact .check .rfl (by decide) fun _ => .check .rfl (by decide) fun _ =>
      .finished _ _ (sameWrites_setResults rfl _ _ _ _ _)
  | carGen =>
    refine checkCount_agree hcfg hsnap ?_
    rw [hcfg, hsnap]
    exact .finished _ _ (sameWrites_putOuts rfl (fun _ _ => rfl) _ _)
  | carPhases =>
    refine checkCount_agree hcfg hsnap ?_
    rw [hsnap]
    exact .finished _ _ (sameWrites_putOuts rfl (fun _ _ => rfl) _ _)
  | carEval =>
    simp only [bodyOf, carEvalBody, hcfg, hsnap]
    exact .finished _ _ (sameWrites_setResults rfl _ _ _ _ _)
  | carRomRead =>
    simp only [bodyOf, carRomReadBody, hcfg, hsnap]
    exact .check .rfl (by decide) fun _ => .finished _ _ (sameWrites_setResults rfl _ _ _ _ _)

/-- CAR_LUT agrees on equal and written IN words, none of them raced. -/
theorem carLut_agree (hraced : s.raced = []) (hraced' : s'.raced = [])
    (hin : ∀ j, j < opCount s.snap → Memory.wordAt s.mem (inAddr j) = Memory.wordAt s'.mem (inAddr j) ∧
      Memory.wordAt s.mem (inAddr j) ≠ none) :
    Execution.Agree .carLut (opCount s.snap) (carLutBody s) (carLutBody s') := by
  refine checkCount_agree hcfg hsnap ?_
  rw [hsnap]
  refine .finished _ _ (sameWrites_putOuts rfl (fun j hj => ?_) _ _)
  obtain ⟨hword, hwritten⟩ := hin j hj
  exact lutWord_congr hcfg hraced hraced' hword hwritten

/-- CODE_SAMPLE agrees on equal tables whose sampled cells are written. -/
theorem codeSample_agree (hshape : SameShape s s') (hcells : SameCells s s')
    (hwritten : ∀ j, j < opCount s.snap → s.cell (s.sampleRow j) (opSampleColumn s.snap) ≠ none) :
    Execution.Agree .codeSample (opCount s.snap) (codeSampleBody s) (codeSampleBody s') := by
  refine .check (by rw [hshape.tableValid]) (by decide) fun _ => .check (by rw [hsnap]) (by decide) fun _ =>
    checkCount_agree hcfg hsnap (.check (by rw [hshape.ctPrns, hsnap]) (by decide) fun _ => ?_)
  rw [hsnap]
  refine .finished _ _ ((sameWrites_putOuts rfl (fun j hj => ?_) _ _).noteUnwritten _ _)
  exact sampleWord_congr hsnap hshape.ctLen hcells (hwritten j hj)

end

/-- CT_READ and CT_READ_UNCHECKED agree on equal tables whose cell at hand is written: both read it. -/
theorem tableRead_agree {i : Instr} (hi : i = .ctRead ∨ i = .ctReadUnchecked) {s s' : State} (n : Nat)
    (hsnap : s'.snap = s.snap) (hshape : SameShape s s') (hcells : SameCells s s')
    (hin : s.inTable (opRow s.snap) (opColumn s.snap) = true)
    (hwritten : s.cell (opRow s.snap) (opColumn s.snap) ≠ none) :
    Execution.Agree i n (bodyOf i s) (bodyOf i s') := by
  have hin' : s'.inTable (opRow s'.snap) (opColumn s'.snap) = true := by
    simpa only [State.inTable, hsnap, hshape.ctLen, hshape.ctPrns] using hin
  have hvalid : s.tableValid = false ↔ s'.tableValid = false := by rw [hshape.tableValid]
  have hread (hout : writesOut i = false) : Execution.Agree i n (.ok (s.readChip (opRow s.snap) (opColumn s.snap)))
      (.ok (s'.readChip (opRow s'.snap) (opColumn s'.snap))) := by
    obtain ⟨b, hb⟩ := Option.ne_none_iff_exists'.mp hwritten
    rw [hsnap, readChip_written hb, readChip_written ((hcells _).trans hb)]
    exact .finished _ _ (sameWrites_setResults hout _ _ _ _ _)
  rcases hi with rfl | rfl
  all_goals exact .check hvalid (by decide) fun _ => .ite (iff_of_true hin hin') (fun _ => hread rfl) (absurd hin)

/-- Agreeing executions end their commands with one code, and with the same writes if it is OK. -/
theorem Execution.Agree.conclude {i : Instr} {n : Nat} {x x' : Execution} (h : Execution.Agree i n x x')
    (s s' : State) : (s.conclude x).err = (s'.conclude x').err ∧
      ((s.conclude x).err = .ok → SameWrites i n (s.conclude x) (s'.conclude x')) := by
  cases h with
  | raised e he => exact ⟨rfl, fun hok => absurd hok he⟩
  | finished u u' hwrites => exact ⟨rfl, fun _ => ⟨hwrites.results, hwrites.outs⟩⟩

/-- Settles O59: the two bodies agree, by what the command reads, and so do their ends. -/
theorem commandsAreRestartable : Obligations.CommandsAreRestartable := by
  intro i s s' t t' ht ht' pos row hcfg hsnap htable hlut
  have hshape (hi : i = .codeSample ∨ i = .ctRead ∨ i = .ctReadUnchecked) : SameShape s s' := by
    obtain ⟨hvalid, hlen, hprns, -⟩ := htable hi
    exact ⟨hvalid.symm, hlen.symm, hprns.symm⟩
  have hread (hi : i = .ctRead ∨ i = .ctReadUnchecked) :
      Execution.Agree i (opCount s.snap) (bodyOf i s) (bodyOf i s') := by
    obtain ⟨-, -, -, hcells, -, hcell⟩ := htable (.inr hi)
    obtain ⟨hrow, hcol, hwritten⟩ := hcell (by rcases hi with rfl | rfl <;> decide)
    exact tableRead_agree hi _ hsnap.symm (hshape (.inr hi)) hcells ((inTable_iff s _ _).mpr ⟨hrow, hcol⟩) hwritten
  have hagree : Execution.Agree i (opCount s.snap) (bodyOf i s) (bodyOf i s') := by
    cases i with
    | codeSample =>
      obtain ⟨-, -, -, hcells, hwritten, -⟩ := htable (.inl rfl)
      exact codeSample_agree hcfg.symm hsnap.symm (hshape (.inl rfl)) hcells (hwritten rfl)
    | ctRead => exact hread (.inl rfl)
    | ctReadUnchecked => exact hread (.inr rfl)
    | carLut =>
      obtain ⟨hraced, hraced', hin⟩ := hlut rfl
      exact carLut_agree hcfg.symm hsnap.symm hraced hraced' hin
    | _ => exact body_agree_of_noReads hcfg.symm hsnap.symm (by decide) (by decide)
  obtain ⟨herr, hwrites⟩ := hagree.conclude s s'
  rw [exec_next ht, exec_next ht']
  exact ⟨herr, fun hok => ⟨(hwrites hok).results, (hwrites hok).outs⟩⟩

end Sys2Proof.Machine
end

section
/-! The code table (41_code_table.md): its commands, the guard rows as an invariant, the round trip, and what records
an unwritten cell. -/

namespace Sys2Proof.Machine

/-! ## Cells -/

/-- The guard rows of a built table are copies of what rows `len` and 1 held (41_code_table.md R143). -/
theorem cell_buildTable_guards (s : State) {len n c : Nat} (hlen : 2 ≤ len) (hn : n ≤ 65536) (hc : c < n) :
    (s.buildTable len n).cell 0 c = s.cell len c ∧ (s.buildTable len n).cell (len + 1) c = s.cell 1 c :=
  byteAt_fillGuards len n s.table hlen hn c hc

/-- CT_BUILD leaves the interior rows (41_code_table.md R143). -/
theorem cell_buildTable_interior (s : State) {len n r c : Nat} (hn : n ≤ 65536) (hc : c < 65536)
    (hr : 1 ≤ r ∧ r ≤ len) : (s.buildTable len n).cell r c = s.cell r c :=
  byteAt_fillGuards_other _ _ _ _ fun d hd => by simp only [cellKey]; omega

/-- CT_LEN and CT_PRNS hold a shape in range without loss (10_state.md R32, R33). -/
theorem buildTable_shape (s : State) {len n : Nat} (hcfg : s.cfg.wf = true) (hlen : len ≤ s.cfg.lMax)
    (hn : n ≤ s.cfg.prnMax) :
    (s.buildTable len n).ctLen.toNat = len ∧ (s.buildTable len n).ctPrns.toNat = n := by
  obtain ⟨-, -, -, hl, -, hp, -, -⟩ := Config_wf_ranges hcfg
  exact ⟨Nat.mod_eq_of_lt (by omega), Nat.mod_eq_of_lt (by omega)⟩

/-! ## The guard rows -/

theorem State.guardRows_of_invalid {s : State} (h : s.tableValid = false) : s.GuardRows :=
  fun hvalid => absurd (hvalid.symm.trans h) (by decide)

/-- The guard row clause reads the shape and the table only. -/
theorem State.GuardRows.congr {s t : State} (h : s.GuardRows) (hshape : SameShape s t) (htable : t.table = s.table) :
    t.GuardRows := by
  simpa only [State.GuardRows, State.cell, hshape.tableValid, hshape.ctLen, hshape.ctPrns, htable] using h

/-- An acceptance leaves the table and its shape, and can only clear TABLE_VALID (40_engine.md R121). -/
theorem State.GuardRows.accept {s : State} (h : s.GuardRows) (w : Word) : (s.accept w).GuardRows := by
  by_cases hw : w = 0x00000001#32 ∨ w = 0x00000002#32
  · exact guardRows_of_invalid (if_pos hw)
  · exact h.congr ⟨if_neg hw, rfl, rfl⟩ rfl

/-- CT_BUILD makes the guard rows copies of rows it leaves (41_code_table.md R143). -/
theorem State.guardRows_buildTable (s : State) {len n : Nat} (hcfg : s.cfg.wf = true) (h2 : 2 ≤ len)
    (hlen : len ≤ s.cfg.lMax) (hn : n ≤ s.cfg.prnMax) : (s.buildTable len n).GuardRows := by
  intro _ c hc
  obtain ⟨-, -, -, -, -, hp, -, -⟩ := Config_wf_ranges hcfg
  obtain ⟨elen, eprns⟩ := buildTable_shape s hcfg hlen hn
  rw [eprns] at hc
  obtain ⟨hlow, hhigh⟩ := cell_buildTable_guards s h2 (by omega) hc
  rw [elen, hlow, hhigh, cell_buildTable_interior s (by omega) (by omega) (by omega),
    cell_buildTable_interior s (by omega) (by omega) (by omega)]
  exact ⟨rfl, rfl⟩

/-- A command's body keeps the guard rows: CT_BUILD makes them, CT_WRITE runs without a table only, and no other command
writes the table (41_code_table.md R140). -/
theorem State.GuardRows.body {i : Instr} {s u : State} (h : s.GuardRows) (hcfg : s.cfg.wf = true)
    (hwrite : i = .ctWrite → s.tableValid = false) (hu : bodyOf i s = .ok u) : u.GuardRows := by
  rcases body_cases hu with ⟨-, rfl⟩ | ⟨hi, r, c, v, rfl, -⟩ | ⟨-, len, prns, rfl, h2, hlen, -, hprns⟩ |
    ⟨-, r0, r1, n, rfl⟩ | ⟨-, n, f, n', rfl, -⟩
  · exact h
  · exact guardRows_of_invalid (hwrite hi)
  · exact guardRows_buildTable s hcfg h2 hlen hprns
  all_goals exact h.congr ⟨by simp, by simp, by simp⟩ (by simp)

/-- Settles O51: only reset, an acceptance and a command's OK end move the table, its shape or TABLE_VALID; a running
CT_WRITE has cleared TABLE_VALID at its acceptance. -/
theorem everyStepKeepsTheGuardRows : Obligations.EveryStepKeepsTheGuardRows := by
  intro s t hinv h hstep
  cases stepEvent hstep with
  | reset rest hp ht => subst ht; exact State.guardRows_of_invalid rfl
  | accept addr w rest hp ha hb ht => subst ht; exact State.GuardRows.accept (s := s.popMove) h w
  | inWord addr w rest i hp ha hi hr ht => rw [inWord_step_eq] at ht; subst ht; exact h
  | finished i u turn hb hd hu ht =>
    subst ht
    obtain ⟨-, -, hcleared⟩ := hinv.busyFlags hb
    have hwrite (hi : i = .ctWrite) : s.tableValid = false := hcleared (.inl ((decode_eq_ok_iff _ _).mp (hi ▸ hd)))
    have hguards : u.GuardRows := State.GuardRows.body (s := s.popMove) h hinv.config hwrite hu
    exact hguards
  | _ => subst_vars; exact h

/-! ## A host's command -/

/-- The state a host's command runs from: its arguments written and its word accepted (40_engine.md R121). -/
def State.issued (s : State) (i : Instr) (x : Args) : State := (s.setArgs x).accept (encode i)

@[simp] theorem State.issued_snap (s : State) (i : Instr) (x : Args) : (s.issued i x).snap = x := rfl

theorem runCommand_eq (s : State) (i : Instr) (x : Args) :
    s.runCommand i x = (s.issued i x).conclude (bodyOf i (s.issued i x)) := by
  rw [State.runCommand, exec_eq]
  rfl

/-- A command other than CT_BUILD leaves TABLE_VALID, and so does a raise (10_state.md R34). -/
theorem conclude_tableValid {i : Instr} {s : State} (h : i ≠ .ctBuild ∨ ∃ e, bodyOf i s = .error e) :
    (s.conclude (bodyOf i s)).tableValid = s.tableValid := by
  cases hx : bodyOf i s with
  | error e => rfl
  | ok u =>
    rcases body_shape hx with ⟨rfl, -⟩ | hsame
    · rcases h with hi | ⟨e, he⟩
      · exact absurd rfl hi
      · exact nomatch hx.symm.trans he
    · exact hsame.tableValid

/-! ## CT_WRITE and CT_BUILD -/

theorem ctWrite_ok {s : State} (hrow : s.snap.a0.toNat < s.cfg.lMax) (hcol : s.snap.a1.toNat < s.cfg.prnMax) :
    bodyOf .ctWrite s =
      .ok (s.putChip (s.snap.a0.toNat + 1) s.snap.a1.toNat (some (s.snap.a2.extractLsb' 0 8))) :=
  if_neg (not_or.mpr ⟨Nat.not_le.mpr hrow, Nat.not_le.mpr hcol⟩)

theorem ctWrite_error {s : State} (h : s.cfg.lMax ≤ s.snap.a0.toNat ∨ s.cfg.prnMax ≤ s.snap.a1.toNat) :
    bodyOf .ctWrite s = .error .outOfRange := if_pos h

/-- The bytes of the table after one chip is put. -/
theorem byteAt_putChip (s : State) (r c : Nat) (v : Option Byte) (k : Nat) :
    Memory.byteAt (s.putChip r c v).table k = if k = cellKey r c then v else Memory.byteAt s.table k :=
  Memory.byteAt_putCell ..

/-- Settles O25: the body puts one chip or raises, and TABLE_VALID was cleared at the acceptance. -/
theorem ctWriteStoresOneChip : Obligations.CtWriteStoresOneChip := by
  refine fun s => ⟨fun hrow hcol => ?_, fun hout => ⟨_, exec_of_error (ctWrite_error hout), raised_complete s _⟩,
    fun x => ?_⟩
  · have hbody := ctWrite_ok hrow hcol
    refine ⟨_, exec_of_ok hbody, completed_of_body hbody, ?_, fun k hk => ?_, ⟨rfl, rfl⟩, ⟨rfl, rfl, rfl⟩, fun _ => rfl,
      rfl⟩
    · rw [State.cell, State.complete_table, byteAt_putChip, if_pos rfl]
    · rw [State.complete_table, byteAt_putChip, if_neg hk]
  · rw [runCommand_eq, conclude_tableValid (.inl (by decide))]
    exact accept_clears_tableValid _ (.inl (decode_encode .ctWrite))

theorem ctBuild_ok {s : State} (h2 : 2 ≤ s.snap.a0.toNat) (hlen : s.snap.a0.toNat ≤ s.cfg.lMax)
    (h1 : 1 ≤ s.snap.a1.toNat) (hprns : s.snap.a1.toNat ≤ s.cfg.prnMax) :
    bodyOf .ctBuild s = .ok (s.buildTable s.snap.a0.toNat s.snap.a1.toNat) :=
  if_neg (by simp only [opBuildLength, opBuildColumns]; omega)

theorem ctBuild_error {s : State} (h : s.snap.a0.toNat < 2 ∨ s.cfg.lMax < s.snap.a0.toNat ∨
    s.snap.a1.toNat < 1 ∨ s.cfg.prnMax < s.snap.a1.toNat) : bodyOf .ctBuild s = .error .invalidInput := if_pos h

/-- The shape registers read back a shape in range as the words it was given in (10_state.md R32, R33). -/
theorem buildTable_shapeWords (s : State) {x y : Word} (hcfg : s.cfg.wf = true) (hlen : x.toNat ≤ s.cfg.lMax)
    (hn : y.toNat ≤ s.cfg.prnMax) : (s.buildTable x.toNat y.toNat).ctLenWord = x ∧
      (s.buildTable x.toNat y.toNat).ctPrnsWord = y := by
  obtain ⟨elen, eprns⟩ := buildTable_shape s hcfg hlen hn
  constructor <;> apply BitVec.eq_of_toNat_eq
  · rw [State.ctLenWord, BitVec.zeroExtend, BitVec.toNat_setWidth_of_le (by decide), elen]
  · rw [State.ctPrnsWord, BitVec.zeroExtend, BitVec.toNat_setWidth_of_le (by decide), eprns]

/-- Settles O26: the body builds the table or raises, and TABLE_VALID was cleared at the acceptance. -/
theorem ctBuildFillsTheGuardRowsOrRejects : Obligations.CtBuildFillsTheGuardRowsOrRejects := by
  refine fun s hcfg => ⟨fun h2 hlen h1 hprns => ?_,
    fun hout => ⟨_, exec_of_error (ctBuild_error hout), raised_complete s _⟩, fun x hout => ?_⟩
  · have hbody := ctBuild_ok h2 hlen h1 hprns
    obtain ⟨hlenWord, hprnsWord⟩ := buildTable_shapeWords s hcfg hlen hprns
    obtain ⟨-, -, -, -, -, hp, -, -⟩ := Config_wf_ranges hcfg
    exact ⟨_, exec_of_ok hbody, completed_of_body hbody, rfl, hlenWord, hprnsWord,
      fun c hc => cell_buildTable_guards s h2 (by omega) hc, byteAt_fillGuards_other _ _ _, ⟨rfl, rfl⟩, fun _ => rfl,
      rfl⟩
  · rw [runCommand_eq, conclude_tableValid (.inr ⟨_, ctBuild_error hout⟩)]
    exact accept_clears_tableValid _ (.inr (decode_encode .ctBuild))

/-! ## The two reads -/

/-- Inside the table both reads are the read of their cell (41_code_table.md R144, R145). -/
theorem tableRead_ok {i : Instr} (hi : i = .ctRead ∨ i = .ctReadUnchecked) {s : State} (hvalid : s.tableValid = true)
    (hrow : s.snap.a0.toNat ≤ s.ctLen.toNat + 1) (hcol : s.snap.a1.toNat < s.ctPrns.toNat) :
    bodyOf i s = .ok (s.readChip s.snap.a0.toNat s.snap.a1.toNat) := by
  have hin := (inTable_iff s _ _).mpr ⟨hrow, hcol⟩
  rcases hi with rfl | rfl
  all_goals exact (if_neg (by simp [hvalid])).trans (if_pos hin)

theorem not_inTable {s : State} {r c : Nat} (h : s.ctLen.toNat + 1 < r ∨ s.ctPrns.toNat ≤ c) :
    ¬s.inTable r c = true := by
  rw [inTable_iff]; omega

theorem ctRead_error {s : State} (hvalid : s.tableValid = true)
    (hout : s.ctLen.toNat + 1 < s.snap.a0.toNat ∨ s.ctPrns.toNat ≤ s.snap.a1.toNat) :
    bodyOf .ctRead s = .error .outOfRange :=
  (if_neg (by simp [hvalid])).trans (if_neg (not_inTable hout))

theorem ctReadUnchecked_outside {s : State} (hvalid : s.tableValid = true)
    (hout : s.ctLen.toNat + 1 < s.snap.a0.toNat ∨ s.ctPrns.toNat ≤ s.snap.a1.toNat) :
    bodyOf .ctReadUnchecked s = .ok (s.setResults (Config.freeWord s.draws 0x00040) 0) :=
  (if_neg (by simp [hvalid])).trans (if_neg (not_inTable hout))

/-- A chip read writes the results; it records a fault exactly if the cell is unwritten (41_code_table.md R144;
93_implementation_defined.md I3). -/
theorem readChip_complete (s : State) (r c : Nat) :
    (∀ b, s.cell r c = some b → WroteResults s ((s.readChip r c).complete .ok) (b.signExtend 32) 0 ∧
      SameFault s ((s.readChip r c).complete .ok)) ∧
    (s.cell r c = none →
      WroteResults s ((s.readChip r c).complete .ok) ((Config.freeChip s.draws (cellKey r c)).signExtend 32) 0 ∧
      ((s.readChip r c).complete .ok).fault = some .unwrittenCell) := by
  refine ⟨fun b hb => ?_, fun hnone => ?_⟩
  · rw [readChip_written hb]
    exact ⟨wroteResults_complete s _ 0 false, rfl⟩
  · rw [readChip_unwritten hnone]
    exact ⟨wroteResults_complete s _ 0 true, rfl⟩

/-- Settles O27: without a table and outside it the body raises, inside it is the read of the cell. -/
theorem ctReadReturnsTheChip : Obligations.CtReadReturnsTheChip := by
  refine fun s => ⟨_, exec_eq .ctRead s, fun hvalid => ?_, fun hvalid hout => ?_, fun hvalid hrow hcol => ?_⟩
  · rw [body_tableInvalid hvalid (.inl rfl)]; exact raised_complete s _
  · rw [ctRead_error hvalid hout]; exact raised_complete s _
  · rw [tableRead_ok (.inl rfl) hvalid hrow hcol]; exact readChip_complete s _ _

/-- Settles O28: without a table the body raises, outside it RESULT0 is a free word, inside it is the read of the
cell. -/
theorem ctReadUncheckedReturnsTheChipOrAnyWord : Obligations.CtReadUncheckedReturnsTheChipOrAnyWord := by
  refine fun s => ⟨_, exec_eq .ctReadUnchecked s, fun hvalid => ?_, fun hvalid hout => ?_, fun hvalid hrow hcol => ?_⟩
  · rw [body_tableInvalid hvalid (.inr (.inl rfl))]; exact raised_complete s _
  · rw [ctReadUnchecked_outside hvalid hout]; exact ⟨wroteResults_complete s _ 0 false, rfl⟩
  · rw [tableRead_ok (.inr rfl) hvalid hrow hcol]; exact readChip_complete s _ _

/-- Settles O29: on valid input both bodies are the read of the cell. -/
theorem theTwoReadsAgree : Obligations.TheTwoReadsAgree :=
  fun _ hvalid hrow hcol => ⟨_, exec_of_ok (tableRead_ok (.inl rfl) hvalid hrow hcol),
    exec_of_ok (tableRead_ok (.inr rfl) hvalid hrow hcol), rfl⟩

/-! ## The round trip -/

theorem runCommand_of_ok {s u : State} {i : Instr} {x : Args} (h : bodyOf i (s.issued i x) = .ok u) :
    s.runCommand i x = u.complete .ok := by
  rw [runCommand_eq, h]
  rfl

theorem args2_toNat {x y : Nat} (hx : x < 2 ^ 32) (hy : y < 2 ^ 32) :
    (args2 x y).a0.toNat = x ∧ (args2 x y).a1.toNat = y :=
  ⟨Nat.mod_eq_of_lt hx, Nat.mod_eq_of_lt hy⟩

/-- The arguments of the CT_WRITE of chip `b` into chip index `i` of column `p`, as `loadChips` writes them. -/
def chipArgs (i p : Nat) (b : Byte) : Args := { args2 i p with a2 := b.signExtend 32 }

theorem loadChips_cons (p : Nat) (b : Byte) (bs : List Byte) (i : Nat) (s : State) :
    loadChips p (b :: bs) i s = loadChips p bs (i + 1) (s.runCommand .ctWrite (chipArgs i p b)) := rfl

/-- The low byte of a sign-extended chip is the chip (41_code_table.md R141, R147). -/
theorem lowByte_signExtend (b : Byte) : (b.signExtend 32).extractLsb' 0 8 = b := by
  apply BitVec.eq_of_getLsbD_eq
  intro i hi
  simp only [BitVec.getLsbD_extractLsb', BitVec.getLsbD_signExtend, Nat.zero_add]
  rw [if_pos hi]
  simp only [hi, show i < 32 by omega, decide_true, Bool.true_and]

/-- CT_WRITE of a chip in range puts that chip (41_code_table.md R141). -/
theorem runCommand_ctWrite {s : State} (hcfg : s.cfg.wf = true) {i p : Nat} (b : Byte) (hi : i < s.cfg.lMax)
    (hp : p < s.cfg.prnMax) : s.runCommand .ctWrite (chipArgs i p b) =
      ((s.issued .ctWrite (chipArgs i p b)).putChip (i + 1) p (some b)).complete .ok := by
  obtain ⟨-, -, -, hl, -, hprn, -, -⟩ := Config_wf_ranges hcfg
  obtain ⟨ei, ep⟩ : (chipArgs i p b).a0.toNat = i ∧ (chipArgs i p b).a1.toNat = p := args2_toNat (by omega) (by omega)
  have hbody := ctWrite_ok (s := s.issued .ctWrite (chipArgs i p b)) (ei.trans_lt hi) (ep.trans_lt hp)
  rw [State.issued_snap, ei, ep] at hbody
  rw [runCommand_of_ok hbody]
  exact congrArg (fun v => State.complete (State.putChip _ (i + 1) p (some v)) .ok) (lowByte_signExtend b)

/-- In its own column, CT_WRITE of a chip in range changes the chip's row only. -/
theorem runCommand_ctWrite_cell {s : State} (hcfg : s.cfg.wf = true) {i p : Nat} (b : Byte) (hi : i < s.cfg.lMax)
    (hp : p < s.cfg.prnMax) (r : Nat) :
    (s.runCommand .ctWrite (chipArgs i p b)).cell r p = if r = i + 1 then some b else s.cell r p := by
  obtain ⟨-, -, -, -, -, hprn, -, -⟩ := Config_wf_ranges hcfg
  have hkey : cellKey r p = cellKey (i + 1) p ↔ r = i + 1 :=
    (cellKey_inj (by omega) (by omega)).trans (and_iff_left rfl)
  rw [runCommand_ctWrite hcfg b hi hp, State.cell, State.complete_table, byteAt_putChip]
  simp only [hkey]
  rfl

/-- `t` holds the built table of code length `len` and `n` columns over the cells of `s` (41_code_table.md R140). -/
structure BuiltFrom (s t : State) (len n : Nat) : Prop where
  err : t.err = .ok
  valid : t.tableValid = true
  ctLen : t.ctLen.toNat = len
  ctPrns : t.ctPrns.toNat = n
  guards : ∀ c, c < n → t.cell 0 c = s.cell len c ∧ t.cell (len + 1) c = s.cell 1 c
  interior : ∀ r c, 1 ≤ r ∧ r ≤ len → c < n → t.cell r c = s.cell r c

/-- CT_BUILD of a shape in range builds that table (41_code_table.md R143). -/
theorem runCommand_ctBuild {s : State} (hcfg : s.cfg.wf = true) {len n : Nat} (h2 : 2 ≤ len) (hlen : len ≤ s.cfg.lMax)
    (h1 : 1 ≤ n) (hn : n ≤ s.cfg.prnMax) : BuiltFrom s (s.runCommand .ctBuild (args2 len n)) len n := by
  obtain ⟨-, -, -, hl, -, hprn, -, -⟩ := Config_wf_ranges hcfg
  obtain ⟨elen, en⟩ := args2_toNat (x := len) (y := n) (by omega) (by omega)
  have hbody := ctBuild_ok (s := s.issued .ctBuild (args2 len n)) (h2.trans_eq elen.symm) (elen.trans_le hlen)
    (h1.trans_eq en.symm) (en.trans_le hn)
  rw [State.issued_snap, elen, en] at hbody
  obtain ⟨hctLen, hctPrns⟩ := buildTable_shape (s.issued .ctBuild (args2 len n)) hcfg hlen hn
  rw [runCommand_of_ok hbody]
  exact ⟨rfl, rfl, hctLen, hctPrns, fun c hc => cell_buildTable_guards _ h2 (by omega) hc,
    fun r c hr hc => cell_buildTable_interior _ (by omega) (by omega) hr⟩

/-- CT_READ of a written cell of the table returns its chip (41_code_table.md R144). -/
theorem runCommand_ctRead {s : State} (hvalid : s.tableValid = true) {r c : Nat} {b : Byte}
    (hr : r ≤ s.ctLen.toNat + 1) (hc : c < s.ctPrns.toNat) (hb : s.cell r c = some b) :
    (s.runCommand .ctRead (args2 r c)).err = .ok ∧ (s.runCommand .ctRead (args2 r c)).result0 = b.signExtend 32 := by
  obtain ⟨er, ec⟩ := args2_toNat (x := r) (y := c) (by omega) (by omega)
  have hbody := tableRead_ok (.inl rfl) (s := s.issued .ctRead (args2 r c)) hvalid (er.trans_le hr) (ec.trans_lt hc)
  rw [State.issued_snap, er, ec] at hbody
  obtain ⟨hwrote, -⟩ := (readChip_complete (s.issued .ctRead (args2 r c)) r c).1 b hb
  rw [runCommand_of_ok hbody]
  exact ⟨rfl, hwrote.result0⟩

/-- Loading chips from index `i` on keeps the configuration and the rows up to `i` of the column, and chip `k` stands in
row `i + k + 1` (41_code_table.md R147). -/
theorem loadChips_spec {p : Nat} (chips : List Byte) : ∀ {s : State} {i : Nat}, s.cfg.wf = true →
    i + chips.length ≤ s.cfg.lMax → p < s.cfg.prnMax →
    (loadChips p chips i s).cfg = s.cfg ∧
    (∀ r, r ≤ i → (loadChips p chips i s).cell r p = s.cell r p) ∧
    ∀ k, k < chips.length → (loadChips p chips i s).cell (i + k + 1) p = chips[k]? := by
  induction chips with
  | nil => exact fun _ _ _ => ⟨rfl, fun _ _ => rfl, fun _ hk => absurd hk (Nat.not_lt_zero _)⟩
  | cons b bs ih =>
    intro s i hcfg hi hp
    rw [List.length_cons] at hi
    have hwrite := runCommand_ctWrite hcfg b (i := i) (by omega) hp
    have hcell := runCommand_ctWrite_cell hcfg b (i := i) (by omega) hp
    have hcfg' : (s.runCommand .ctWrite (chipArgs i p b)).cfg = s.cfg := by rw [hwrite]; rfl
    obtain ⟨hframe, hbelow, hchips⟩ := ih (s := s.runCommand .ctWrite (chipArgs i p b)) (i := i + 1)
      (by rwa [hcfg']) (by rw [hcfg']; omega) (by rwa [hcfg'])
    rw [loadChips_cons]
    refine ⟨hframe.trans hcfg', fun r hr => ?_, fun k hk => ?_⟩
    · rw [hbelow r (by omega), hcell, if_neg (by omega)]
    · cases k with
      | zero => rw [hbelow _ le_rfl, hcell, if_pos rfl]; rfl
      | succ k =>
        rw [List.getElem?_cons_succ, ← hchips k (by simpa using hk)]
        congr 1; omega

/-- Settles O30: the loaded chips stand in the interior rows, which CT_BUILD leaves and copies into the guard rows. -/
theorem tableRoundTrip : Obligations.TableRoundTrip := by
  intro s chips p prns hcfg h2 hlen hp hprns t read
  obtain ⟨hframe, -, hloaded⟩ := loadChips_spec (p := p) chips (i := 0) hcfg (by omega) (by omega)
  simp only [Nat.zero_add] at hloaded
  have hcfg' : (loadChips p chips 0 s).cfg.wf = true := by rwa [hframe]
  have hbuilt : BuiltFrom (loadChips p chips 0 s) t chips.length prns :=
    runCommand_ctBuild hcfg' h2 (by rwa [hframe]) (by omega) (by rwa [hframe])
  obtain ⟨hlast, hfirst⟩ := hbuilt.guards p hp
  have hread (r : Nat) (b : Byte) (hr : r ≤ chips.length + 1) (hb : t.cell r p = some b) :
      (read r).err = .ok ∧ (read r).result0 = b.signExtend 32 :=
    runCommand_ctRead hbuilt.valid (by rwa [hbuilt.ctLen]) (by rwa [hbuilt.ctPrns]) hb
  refine ⟨hbuilt.err, fun i hi => hread _ _ (by omega) ?_, fun b hb => hread _ b (by omega) ?_,
    fun b hb => hread _ b le_rfl ?_⟩
  · rw [hbuilt.interior _ _ (by omega) hp, hloaded i hi, List.getElem?_eq_getElem hi]
  · rw [hlast, ← hb, List.getLast?_eq_getElem?, ← hloaded _ (by omega), Nat.sub_add_cancel (by omega)]
  · rw [hfirst, ← hb, List.head?_eq_getElem?, ← hloaded 0 (by omega)]

/-! ## The fault record -/

/-- A check that was passed did not hold. -/
theorem check_passed {p : Prop} [Decidable p] {e : StatusCode} {x : Execution} {t : State}
    (h : (if p then .error e else x) = .ok t) : ¬p ∧ x = .ok t := by
  split at h
  · cases h
  · exact ⟨by assumption, h⟩

/-- Command `i` reads an unwritten cell of the table: its own, or one that CODE_SAMPLE samples
(93_implementation_defined.md I3). -/
def State.ReadsUnwritten (s : State) (i : Instr) : Prop :=
  s.tableValid = true ∧
  (((i = .ctRead ∨ i = .ctReadUnchecked) ∧ s.inTable (opRow s.snap) (opColumn s.snap) = true ∧
      s.cell (opRow s.snap) (opColumn s.snap) = none) ∨
    (i = .codeSample ∧ opSampleColumn s.snap < s.ctPrns.toNat ∧
      ∃ j, j < opCount s.snap ∧ s.cell (s.sampleRow j) (opSampleColumn s.snap) = none))

/-- The chip read of CT_READ and CT_READ_UNCHECKED leaves the fault record if its cell is written. -/
theorem readChip_fault {i : Instr} (hi : i = .ctRead ∨ i = .ctReadUnchecked) {s : State}
    (hvalid : ¬s.tableValid = false) (hin : s.inTable (opRow s.snap) (opColumn s.snap) = true) :
    (s.readChip (opRow s.snap) (opColumn s.snap)).fault = s.fault ∨ s.ReadsUnwritten i := by
  cases hcell : s.cell (opRow s.snap) (opColumn s.snap) with
  | none => exact .inr ⟨eq_true_of_ne_false hvalid, .inl ⟨hi, hin, hcell⟩⟩
  | some b => rw [readChip_written hcell]; exact .inl rfl

/-- A body that ends OK leaves the fault record unless the command reads an unwritten cell of the table. -/
theorem body_fault {i : Instr} {s u : State} (h : bodyOf i s = .ok u) : u.fault = s.fault ∨ s.ReadsUnwritten i := by
  cases i with
  | nop => cases h; exact .inl rfl
  | ctWrite => obtain ⟨-, h⟩ := check_passed h; cases h; exact .inl rfl
  | ctBuild => obtain ⟨-, h⟩ := check_passed h; cases h; exact .inl rfl
  | ctRead =>
    obtain ⟨hvalid, h⟩ := check_passed h
    split at h
    · cases h; exact readChip_fault (.inl rfl) hvalid ‹_›
    · cases h
  | ctReadUnchecked =>
    obtain ⟨hvalid, h⟩ := check_passed h
    split at h
    · cases h; exact readChip_fault (.inr rfl) hvalid ‹_›
    · cases h; exact .inl rfl
  | codeSample =>
    obtain ⟨hvalid, h⟩ := check_passed h
    obtain ⟨-, h⟩ := check_passed h
    obtain ⟨-, h⟩ := checkCount_ok h
    obtain ⟨hcol, h⟩ := check_passed h
    cases h
    cases hu : s.samplesUnwritten with
    | false => exact .inl rfl
    | true =>
      obtain ⟨j, hj, hnone⟩ := (anyBelow_iff _ _).mp hu
      have hcell := Option.isNone_iff_eq_none.mp hnone
      exact .inr ⟨eq_true_of_ne_false hvalid, .inr ⟨rfl, Nat.lt_of_not_le hcol, j, hj, hcell⟩⟩
  | codePhase =>
    obtain ⟨-, h⟩ := check_passed h
    obtain ⟨-, h⟩ := check_passed h
    cases h; exact .inl rfl
  | carGen => obtain ⟨-, h⟩ := checkCount_ok h; cases h; exact .inl rfl
  | carPhases => obtain ⟨-, h⟩ := checkCount_ok h; cases h; exact .inl rfl
  | carLut => obtain ⟨-, h⟩ := checkCount_ok h; cases h; exact .inl rfl
  | carEval => cases h; exact .inl rfl
  | carRomRead => obtain ⟨-, h⟩ := check_passed h; cases h; exact .inl rfl

/-- A sample's row is an interior row of a table that is not empty (42_code_sampler.md R162). -/
theorem sampleRow_le {s : State} (h : 0 < s.ctLen.toNat) (j : Nat) : s.sampleRow j ≤ s.ctLen.toNat := by
  have hmod := Int.emod_lt_of_pos (codePos s.snap (opSample s.snap + (j : Int)) / 2 ^ 32) (Int.natCast_pos.mpr h)
  simp only [State.sampleRow, codeIdx]
  omega

/-- Settles O60: only an OK end moves the fault record, by `body_fault`. -/
theorem onlyUnwrittenCellsAreRecorded : Obligations.OnlyUnwrittenCellsAreRecorded := by
  intro s t hinv hstep hnone hfault pos row
  cases stepEvent hstep with
  | finished i u turn hb hd hu ht =>
    subst ht
    obtain hsame | ⟨hvalid, hread⟩ := body_fault hu
    · exact absurd (hsame.trans hnone) hfault
    · refine ⟨hb, turn, rfl, hvalid, ?_⟩
      rcases hread with ⟨hi, hin, hcell⟩ | ⟨rfl, hcol, j, hj, hcell⟩
      · obtain ⟨hr, hc⟩ := (inTable_iff ..).mp hin
        exact .inl ⟨hi.imp (hd.trans <| congrArg _ ·) (hd.trans <| congrArg _ ·), hr, hc, hcell⟩
      · have hlen : 0 < s.ctLen.toNat := by
          rcases hinv.shape with ⟨-, -, hclear⟩ | ⟨h2, -⟩
          · exact absurd (hclear.symm.trans hvalid) (by decide)
          · omega
        exact .inr ⟨hd, hcol, j, hj, sampleRow_le hlen j, hcell⟩
  | inWord addr w rest i hp ha hi hr ht => rw [inWord_step_eq] at ht; subst ht; exact absurd hnone hfault
  | _ => subst_vars; exact absurd hnone hfault

end Sys2Proof.Machine
end

section
/-! The code sampler (42_code_sampler.md): positions and chip indices, the phase accumulator, CODE_PHASE, CODE_SAMPLE
and its period. -/

namespace Sys2Proof.Machine

/-! ## Positions and chip indices -/

/-- Positions a whole number of code periods apart have one chip index (42_code_sampler.md R166). -/
theorem codeIdx_of_dvd {p p' : Int} {len : Nat} (h : (len : Int) * 2 ^ 32 ∣ p' - p) :
    codeIdx p' len = codeIdx p len := by
  obtain ⟨k, hk⟩ := h
  have hp : p' = p + len * k * 2 ^ 32 := by linarith
  rw [codeIdx, hp, Int.add_mul_ediv_right _ _ (by decide), Int.add_mul_emod_self_left, codeIdx]

/-- The position moves on by the increment from one sample to the next (42_code_sampler.md R161). -/
theorem codePos_succ (x : Args) (n : Int) : codePos x (n + 1) = codePos x n + opIncrement x := by
  rw [codePos, codePos]
  ring

/-! ## The accumulator -/

/-- One conditional subtraction reduces the sum of two reduced summands (42_code_sampler.md R163). -/
theorem codeAccNext_eq (x : Args) {len acc : Nat} (h : acc < len * 2 ^ 32) :
    codeAccNext x len acc = (acc + opIncrement x) % (len * 2 ^ 32) := by
  rw [Nat.add_mod_eq_ite, Nat.mod_eq_of_lt h, codeAccNext]

/-- The accumulator holds the position mod L·2^32 at every sample (42_code_sampler.md R163). -/
theorem codeAccAt_eq (x : Args) {len : Nat} (hlen : 0 < len) (j : Nat) :
    (codeAccAt x len j : Int) = codePos x (opSample x + (j : Int)) % ((len : Int) * 2 ^ 32) := by
  have hperiod : 0 < (len : Int) * 2 ^ 32 := by positivity
  induction j with
  | zero =>
    rw [codeAccAt, codeAccStart, Int.toNat_of_nonneg (Int.emod_nonneg _ hperiod.ne'), Int.natCast_zero, Int.add_zero]
  | succ j ih =>
    have hlt : codeAccAt x len j < len * 2 ^ 32 := by
      have := Int.emod_lt_of_pos (codePos x (opSample x + (j : Int))) hperiod
      omega
    rw [codeAccAt, codeAccNext_eq x hlt, Int.natCast_emod, Int.natCast_add, ih, Int.natCast_mul, Int.natCast_pow,
      Nat.cast_ofNat, Int.emod_add_emod, Int.natCast_succ, ← add_assoc, codePos_succ]

/-- Settles O33: the accumulator is the position mod L·2^32, whose whole chips are the index. -/
theorem codeAccumulatorGivesTheChipIndex : Obligations.CodeAccumulatorGivesTheChipIndex := by
  intro x len j hlen inc ph0
  rw [Int.natCast_ediv, codeAccAt_eq x hlen]
  exact mod_then_div _ len hlen

/-! ## CODE_PHASE -/

/-- The centred residual lies in [−L/2, L/2) chips (42_code_sampler.md R165). -/
theorem codeResidual_range (pos : Int) {len : Nat} (hlen : 0 < len) :
    -((len : Int) * 2 ^ 31) ≤ codeResidual pos len ∧ codeResidual pos len < (len : Int) * 2 ^ 31 := by
  have hperiod : 0 < (len : Int) * 2 ^ 32 := by positivity
  have hnonneg := Int.emod_nonneg (pos + len * 2 ^ 31) hperiod.ne'
  have hlt := Int.emod_lt_of_pos (pos + len * 2 ^ 31) hperiod
  rw [codeResidual]
  omega

/-- A 64-bit word is its two halves, the high one first. -/
theorem halves_join (w : BitVec 64) : w.extractLsb' 32 32 ++ w.extractLsb' 0 32 = w :=
  (BitVec.extractLsb'_append_extractLsb'_eq_extractLsb' rfl).trans BitVec.extractLsb'_eq_self

/-- CODE_PHASE writes the centred residual as a 64-bit two's complement value (42_code_sampler.md R164): a length is
below 2^32, so the residual fits. -/
theorem codePhase_ok {s : State} (hlen : s.snap.a1.toNat ≠ 0) (hinc : opIncrement s.snap ≠ 0) :
    ∃ r0 r1, bodyOf .codePhase s = .ok (s.setResults r0 r1) ∧
      (r1 ++ r0 : BitVec 64).toInt = codeResidual (codePos s.snap (opSample s.snap)) s.snap.a1.toNat := by
  refine ⟨_, _, (if_neg hlen).trans (if_neg hinc), ?_⟩
  obtain ⟨hlow, hhigh⟩ := codeResidual_range (codePos s.snap (opSample s.snap)) (Nat.pos_of_ne_zero hlen)
  have hword := s.snap.a1.isLt
  rw [halves_join, opPhaseLength, BitVec.toInt_ofInt_eq_self (by decide) (by omega) (by omega)]

theorem codePhase_error {s : State} (h : s.snap.a1.toNat = 0 ∨ opIncrement s.snap = 0) :
    bodyOf .codePhase s = .error .invalidParameter := by
  by_cases hlen : s.snap.a1.toNat = 0
  · exact if_pos hlen
  · exact (if_neg hlen).trans (if_pos (h.resolve_left hlen))

/-- Settles O34: the body writes the residual's two halves or raises. -/
theorem codePhaseReturnsTheCentredResidual : Obligations.CodePhaseReturnsTheCentredResidual := by
  refine fun s => ⟨fun hlen hinc => ?_, fun h => ⟨_, exec_of_error (codePhase_error h), raised_complete s _⟩⟩
  obtain ⟨r0, r1, hbody, hres⟩ := codePhase_ok hlen hinc
  exact ⟨_, r0, r1, exec_of_ok hbody, wroteResults_complete s r0 r1 false, rfl, hres⟩

/-- Settles O35: an OK end wrote the centred residual, whose range is `codeResidual_range`. -/
theorem codePhaseRange : Obligations.CodePhaseRange := by
  intro s t h hok
  by_cases hvalid : s.snap.a1.toNat = 0 ∨ opIncrement s.snap = 0
  · rw [exec_next h, codePhase_error hvalid] at hok
    exact nomatch hok
  · obtain ⟨hlen, hinc⟩ := not_or.mp hvalid
    obtain ⟨r0, r1, hbody, hres⟩ := codePhase_ok hlen hinc
    rw [exec_next h, hbody, conclude_ok, State.complete_result0, State.complete_result1, State.setResults_result0,
      State.setResults_result1, hres]
    exact codeResidual_range _ (Nat.pos_of_ne_zero hlen)

/-! ## CODE_SAMPLE -/

section
variable {s : State} (hvalid : s.tableValid = true)
include hvalid

theorem codeSample_invalidParameter (h : opIncrement s.snap = 0 ∨ s.cfg.bufDepth < s.snap.a1.toNat) :
    bodyOf .codeSample s = .error .invalidParameter := by
  refine (if_neg (by simp [hvalid])).trans ?_
  by_cases hinc : opIncrement s.snap = 0
  · exact if_pos hinc
  · exact (if_neg hinc).trans (if_pos (h.resolve_left hinc))

variable (hinc : opIncrement s.snap ≠ 0) (hcount : s.snap.a1.toNat ≤ s.cfg.bufDepth)
include hinc hcount

theorem codeSample_outOfRange (hcol : s.ctPrns.toNat ≤ s.snap.a6.toNat) :
    bodyOf .codeSample s = .error .outOfRange :=
  (if_neg (by simp [hvalid])).trans ((if_neg hinc).trans ((checkCount_le hcount).trans (if_pos hcol)))

theorem codeSample_ok (hcol : s.snap.a6.toNat < s.ctPrns.toNat) :
    bodyOf .codeSample s =
      .ok ((s.putOuts s.snap.a1.toNat s.sampleWord).noteUnwritten s.samplesUnwritten) :=
  (if_neg (by simp [hvalid])).trans
    ((if_neg hinc).trans ((checkCount_le hcount).trans (if_neg (Nat.not_le.mpr hcol))))

end

/-- CODE_SAMPLE notes a fault exactly if some sampled cell is unwritten (93_implementation_defined.md I3). -/
theorem samplesUnwritten_iff (s : State) :
    s.samplesUnwritten = true ↔ ∃ j, j < s.snap.a1.toNat ∧ s.cell (s.sampleRow j) s.snap.a6.toNat = none := by
  simp only [State.samplesUnwritten, anyBelow_iff, Option.isNone_iff_eq_none, opCount, opSampleColumn]

/-- A written sampled cell gives its chip, an unwritten one a free chip (42_code_sampler.md R162; log 2). -/
theorem sampleWord_cases (s : State) (j : Nat) :
    (∀ b, s.cell (s.sampleRow j) s.snap.a6.toNat = some b → s.sampleWord j = b.signExtend 32) ∧
    (s.cell (s.sampleRow j) s.snap.a6.toNat = none →
      s.sampleWord j = (Config.freeChip s.draws (cellKey (s.sampleRow j) s.snap.a6.toNat)).signExtend 32) := by
  constructor
  · intro b hb
    simp only [State.sampleWord, State.chipAt, opSampleColumn, hb]
  · intro hnone
    simp only [State.sampleWord, State.chipAt, opSampleColumn, hnone]

/-- Settles O31: the body writes the sample words and notes whether a sampled cell is unwritten. -/
theorem codeSampleWritesTheSampledChips : Obligations.CodeSampleWritesTheSampledChips := by
  intro s n0 cnt inc ph0 c row hvalid hinc hcount hcol
  refine ⟨_, s.sampleWord, exec_of_ok (codeSample_ok hvalid hinc hcount hcol), wroteOuts_complete s _ _ _,
    fun j _ => sampleWord_cases s j, fun hwritten => ?_, fun hunwritten => ?_⟩
  · have hnote : s.samplesUnwritten = false := by
      rw [Bool.eq_false_iff, Ne, samplesUnwritten_iff]
      exact fun ⟨j, hj, hnone⟩ => hwritten j hj hnone
    rw [hnote]
    rfl
  · rw [(samplesUnwritten_iff s).mpr hunwritten]
    rfl

/-- Settles O32: one raise per failed check, each after the checks before it. -/
theorem codeSampleRaisesInOrder : Obligations.CodeSampleRaisesInOrder := by
  refine fun s => ⟨_, exec_eq .codeSample s, fun hvalid => ?_, fun hvalid h => ?_, fun hvalid hinc hcount hcol => ?_⟩
  · rw [body_tableInvalid hvalid (.inr (.inr rfl))]; exact raised_complete s _
  · rw [codeSample_invalidParameter hvalid h]; exact raised_complete s _
  · rw [codeSample_outOfRange hvalid hinc hcount hcol]; exact raised_complete s _

/-! ## The period -/

/-- A CODE_SAMPLE that completed OK has passed every check (42_code_sampler.md R162). -/
theorem codeSample_passed {s t : State} (h : exec .codeSample s = .next t) (hok : t.err = .ok) :
    s.tableValid = true ∧ opIncrement s.snap ≠ 0 ∧ s.snap.a1.toNat ≤ s.cfg.bufDepth ∧
      s.snap.a6.toNat < s.ctPrns.toNat := by
  obtain ⟨t', ht', hinvalid, hparam, hrange⟩ := codeSampleRaisesInOrder s
  obtain rfl : t = t' := Host.Outcome.next.inj (h.symm.trans ht')
  have not_raised {e : StatusCode} (he : e ≠ .ok) : ¬Raised s t e := fun hr => he (hr.completed.err.symm.trans hok)
  have hvalid : s.tableValid = true := eq_true_of_ne_false fun hv => not_raised (by decide) (hinvalid hv)
  have hinc : opIncrement s.snap ≠ 0 := fun hi => not_raised (by decide) (hparam hvalid (.inl hi))
  have hcount : s.snap.a1.toNat ≤ s.cfg.bufDepth :=
    Nat.le_of_not_lt fun hc => not_raised (by decide) (hparam hvalid (.inr hc))
  exact ⟨hvalid, hinc, hcount, Nat.lt_of_not_le fun hc => not_raised (by decide) (hrange hvalid hinc hcount hc)⟩

/-- After an OK CODE_SAMPLE the OUT word of a sample whose cell is written is that cell's chip
(42_code_sampler.md R162). -/
theorem codeSample_writtenWord {s t : State} (h : exec .codeSample s = .next t) (hok : t.err = .ok) {j : Nat}
    (hj : j < s.snap.a1.toNat) {b : Byte} (hb : s.cell (s.sampleRow j) s.snap.a6.toNat = some b) :
    Memory.wordAt t.mem (outAddr j) = some (b.signExtend 32) := by
  obtain ⟨hvalid, hinc, hcount, hcol⟩ := codeSample_passed h hok
  obtain ⟨t', f, ht', houts, hwords, -⟩ := codeSampleWritesTheSampledChips s hvalid hinc hcount hcol
  obtain rfl : t = t' := Host.Outcome.next.inj (h.symm.trans ht')
  obtain ⟨hchip, -⟩ := hwords j hj
  rw [houts.words j hj, hchip b hb]

/-- Settles O36: samples a whole number of periods apart read one cell; one period at inc = 2^32 is L samples. -/
theorem samplingIsPeriodic : Obligations.SamplingIsPeriodic := by
  refine ⟨fun x x' n n' len h => codeIdx_of_dvd h,
    fun s t s' t' j j' ht ht' hok hok' hj hj' hlen hcol hcells hwritten => ?_⟩
  obtain ⟨b, hb⟩ := Option.ne_none_iff_exists'.mp hwritten
  have hword (h : (s.ctLen.toNat : Int) * 2 ^ 32 ∣
      codePos s'.snap (opSample s'.snap + (j' : Int)) - codePos s.snap (opSample s.snap + (j : Int))) :
      Memory.wordAt t'.mem (outAddr j') = Memory.wordAt t.mem (outAddr j) := by
    have hrow : s'.sampleRow j' = s.sampleRow j := by
      rw [State.sampleRow, hlen, codeIdx_of_dvd h, State.sampleRow]
    have hb' : s'.cell (s'.sampleRow j') s'.snap.a6.toNat = some b := by
      rw [hrow, hcol, hcells]
      exact hb
    rw [codeSample_writtenWord ht' hok' hj' hb', codeSample_writtenWord ht hok hj hb]
  refine ⟨hword, fun hph hinc hph' hinc' hfirst hperiod => hword ?_⟩
  have hstart : codePos s.snap (opSample s.snap + (j : Int)) = 0 := by
    simp only [codePos, opOffset, opSample, hph, hfirst, zero_mul, add_zero]
  have hend : codePos s'.snap (opSample s'.snap + (j' : Int)) = s.ctLen.toNat * 2 ^ 32 := by
    simp only [codePos, opOffset, opSample, opIncrement, hph', hinc', hperiod, zero_add, Nat.cast_pow, Nat.cast_ofNat]
  rw [hstart, hend, sub_zero]

end Sys2Proof.Machine
end

section
/-! The carrier ROM (43_carrier.md R180): each entry is the real cosine or sine of its angle, scaled and rounded. -/

namespace Sys2Proof.Machine

open Real

/-- The angle k·(π/2)/2^Q of table index k (43_carrier.md R180). -/
noncomputable def romAngle (q k : Nat) : ℝ := k * (π / 2) / 2 ^ q

theorem romAngle_zero (q : Nat) : romAngle q 0 = 0 := by
  simp [romAngle]

theorem romAngle_top (q : Nat) : romAngle q (2 ^ q) = π / 2 := by
  rw [romAngle, Nat.cast_pow, Nat.cast_ofNat, mul_div_cancel_left₀ _ (by positivity)]

theorem romAngle_nonneg (q k : Nat) : 0 ≤ romAngle q k := by
  unfold romAngle
  positivity

/-- The angles of indices k and 2^Q − k are complementary. -/
theorem romAngle_mirror {q k : Nat} (hk : k ≤ 2 ^ q) : romAngle q (2 ^ q - k) = π / 2 - romAngle q k := by
  rw [← romAngle_top q]
  simp only [romAngle, Nat.cast_sub hk, sub_mul, sub_div]

theorem cos_romAngle_nonneg {q k : Nat} (hk : k ≤ 2 ^ q) : 0 ≤ cos (romAngle q k) := by
  have hcompl : 0 ≤ π / 2 - romAngle q k := romAngle_mirror hk ▸ romAngle_nonneg q _
  have hnonneg := romAngle_nonneg q k
  exact cos_nonneg_of_neg_pi_div_two_le_of_le (by linarith) (by linarith)

/-- The search's half-open unit interval, for an index of the table (43_carrier.md R180). -/
theorem romCos_bounds {q k : Nat} (a : Nat) (hk : k ≤ 2 ^ q) :
    (romCos q a k : ℝ) - 1 / 2 ≤ cos (romAngle q k) * 2 ^ a ∧
      cos (romAngle q k) * 2 ^ a < (romCos q a k : ℝ) + 1 / 2 := by
  have hangle : (k : ℝ) * π / 2 ^ (q + 1) = romAngle q k := by
    rw [romAngle, pow_succ]
    field_simp
  have hreach : cos (romAngle q k) * 2 ^ a < ((0 : Nat) : ℝ) + 2 ^ (a + 1) - 1 / 2 := by
    have hcos := mul_le_of_le_one_left (show (0 : ℝ) ≤ 2 ^ a by positivity) (cos_le_one (romAngle q k))
    have hone : (1 : ℝ) ≤ 2 ^ a := one_le_pow₀ one_le_two
    rw [pow_succ]
    push_cast
    linarith
  have hspec := romSearch_spec q a k (hk.trans (Nat.pow_le_pow_right two_pos q.le_succ)) (a + 1) 0 (.inl rfl)
  rw [hangle] at hspec
  obtain ⟨hlow, hhigh⟩ := hspec hreach
  refine ⟨hlow.elim (fun hzero => ?_) id, hhigh⟩
  have hnonneg := mul_nonneg (cos_romAngle_nonneg hk) (show (0 : ℝ) ≤ 2 ^ a by positivity)
  rw [romCos, hzero]
  push_cast
  linarith

/-- CT[k] is the scaled cosine rounded to nearest (43_carrier.md R180). -/
theorem romCos_eq_round {q k : Nat} (a : Nat) (hk : k ≤ 2 ^ q) :
    (romCos q a k : Int) = round (cos (romAngle q k) * 2 ^ a) := by
  obtain ⟨hlow, hhigh⟩ := romCos_bounds a hk
  rw [round_eq, eq_comm, Int.floor_eq_iff, Int.cast_natCast]
  exact ⟨by linarith, by linarith⟩

/-- ST[k] is the scaled sine rounded to nearest (43_carrier.md R180). -/
theorem romSin_eq_round {q k : Nat} (a : Nat) (hk : k ≤ 2 ^ q) :
    (romSin q a k : Int) = round (sin (romAngle q k) * 2 ^ a) := by
  rw [romSin, romCos_eq_round a (Nat.sub_le _ _), romAngle_mirror hk, cos_pi_div_two_sub]

theorem romCos_le {q k : Nat} (a : Nat) (hk : k ≤ 2 ^ q) : romCos q a k ≤ 2 ^ a := by
  obtain ⟨hlow, -⟩ := romCos_bounds a hk
  have hcos := mul_le_of_le_one_left (show (0 : ℝ) ≤ 2 ^ a by positivity) (cos_le_one (romAngle q k))
  have hlt : (romCos q a k : ℝ) < ((2 ^ a + 1 : Nat) : ℝ) := by
    push_cast
    linarith
  exact Nat.lt_succ_iff.mp (Nat.cast_lt.mp hlt)

theorem romSin_le (q a k : Nat) : romSin q a k ≤ 2 ^ a := romCos_le a (Nat.sub_le _ _)

/-- The sine table is the cosine table read backwards (43_carrier.md R180). -/
theorem romSin_mirror {q k : Nat} (a : Nat) (hk : k ≤ 2 ^ q) : romSin q a (2 ^ q - k) = romCos q a k := by
  rw [romSin, Nat.sub_sub_self hk]

theorem romCos_zero (q a : Nat) : romCos q a 0 = 2 ^ a := by
  have h := romCos_eq_round a (Nat.zero_le (2 ^ q))
  rw [romAngle_zero, cos_zero, one_mul, ← Nat.cast_ofNat (R := ℝ), ← Nat.cast_pow, round_natCast] at h
  exact_mod_cast h

theorem romCos_top (q a : Nat) : romCos q a (2 ^ q) = 0 := by
  have h := romCos_eq_round a (le_refl (2 ^ q))
  rw [romAngle_top, cos_pi_div_two, zero_mul, round_zero] at h
  exact_mod_cast h

theorem romSin_zero (q a : Nat) : romSin q a 0 = 0 := romCos_top q a

theorem romSin_top (q a : Nat) : romSin q a (2 ^ q) = 2 ^ a := by
  rw [romSin, Nat.sub_self, romCos_zero]

/-- Settles O37: an index's entries are the rounded cosine and sine of its angle, and the end points are exact. -/
theorem romHoldsTheRoundedCosineAndSine : Obligations.RomHoldsTheRoundedCosineAndSine :=
  fun q a => ⟨fun k hk => ⟨romCos_eq_round a hk, romSin_eq_round a hk, romCos_le a hk, romSin_le q a k, rfl⟩,
    romCos_zero q a, romSin_zero q a, romCos_top q a, romSin_top q a⟩

end Sys2Proof.Machine
end

section
/-! The quadrant fold (43_carrier.md R182, R183): the parts of a phase word and the nearest table index. -/

namespace Sys2Proof.Machine

/-! ## The nearest index -/

section
variable {q : Nat} (hq : q ≤ 16)
include hq

/-- A table step 2^S is two half steps (43_carrier.md R182). -/
theorem tableStep_eq : 2 ^ (30 - q) = 2 * 2 ^ (30 - q - 1) := by
  rw [← pow_succ']
  congr 1
  omega

/-- A quadrant is 2^Q table steps (43_carrier.md R182). -/
theorem tableSteps_eq : 2 ^ q * 2 ^ (30 - q) = 2 ^ 30 := by
  rw [← pow_add]
  congr 1
  omega

/-- An index is the nearest one exactly if the residual lies within half a table step of its angle, the lower end
included (43_carrier.md R182). -/
theorem nearestIndex_eq_iff {r k : Nat} :
    nearestIndex q r = k ↔
      k * 2 ^ (30 - q) ≤ r + 2 ^ (30 - q - 1) ∧ r < k * 2 ^ (30 - q) + 2 ^ (30 - q - 1) := by
  rw [nearestIndex, Nat.div_eq_iff (by positivity), tableStep_eq hq]
  have hhalf : 0 < 2 ^ (30 - q - 1) := by positivity
  omega

theorem nearestIndex_zero : nearestIndex q 0 = 0 :=
  (nearestIndex_eq_iff hq).mpr ⟨by simp, by simp⟩

theorem nearestIndex_top : nearestIndex q (2 ^ 30) = 2 ^ q :=
  (nearestIndex_eq_iff hq).mpr (by rw [tableSteps_eq hq]; exact ⟨Nat.le_add_right _ _, by simp⟩)

theorem nearestIndex_le {r : Nat} (hr : r ≤ 2 ^ 30) : nearestIndex q r ≤ 2 ^ q := by
  rw [← nearestIndex_top hq]
  exact Nat.div_le_div_right (by omega)

/-- A residual lies halfway between two table angles exactly if it is half a step below its nearest index
(43_carrier.md R193). -/
theorem residual_tie_iff {r : Nat} :
    r % 2 ^ (30 - q) = 2 ^ (30 - q - 1) ↔ nearestIndex q r * 2 ^ (30 - q) = r + 2 ^ (30 - q - 1) := by
  have hhalf : 0 < 2 ^ (30 - q - 1) := by positivity
  have hmod := Nat.mod_lt r (show 0 < 2 ^ (30 - q) by positivity)
  rw [nearestIndex, ← Nat.dvd_iff_div_mul_eq, Nat.dvd_iff_mod_eq_zero, Nat.add_mod_eq_ite,
    Nat.mod_eq_of_lt (a := 2 ^ (30 - q - 1)) (by rw [tableStep_eq hq]; omega)]
  rw [tableStep_eq hq] at hmod ⊢
  split <;> omega

/-- The mirrored residual's index, by whether the residual is a tie (43_carrier.md R193). -/
theorem nearestIndex_mirror {r : Nat} (hr : r ≤ 2 ^ 30) :
    nearestIndex q (2 ^ 30 - r) =
      if r % 2 ^ (30 - q) = 2 ^ (30 - q - 1) then 2 ^ q - nearestIndex q r + 1 else 2 ^ q - nearestIndex q r := by
  obtain ⟨hlow, hhigh⟩ := (nearestIndex_eq_iff hq (r := r)).mp rfl
  have hle := Nat.mul_le_mul_right (2 ^ (30 - q)) (nearestIndex_le hq hr)
  have htie := residual_tie_iff hq (r := r)
  rw [nearestIndex_eq_iff hq]
  split
  case isTrue h =>
    rw [Nat.add_mul, Nat.sub_mul, tableSteps_eq hq] at *
    have := htie.mp h
    have := tableStep_eq hq
    have : 0 < 2 ^ (30 - q - 1) := by positivity
    omega
  case isFalse h =>
    have := mt htie.mpr h
    rw [Nat.sub_mul, tableSteps_eq hq] at *
    omega

end

/-! ## The parts of a phase word -/

theorem residual_lt (phi : Word) : residual phi < 2 ^ 30 := Nat.mod_lt _ (by positivity)

/-- A phase word is its quadrant and its residual (43_carrier.md R182). -/
theorem phase_parts (phi : Word) : phi.toNat = (quadrant phi).val * 2 ^ 30 + residual phi := by
  have := phi.isLt
  simp only [quadrant, residual, Fin.ofNat]
  omega

/-- Quadrant and residual are the only parts of a phase word (43_carrier.md R182). -/
theorem parts_eq {phi : Word} {u : Fin 4} {r : Nat} (hr : r < 2 ^ 30) (h : phi.toNat = u.val * 2 ^ 30 + r) :
    quadrant phi = u ∧ residual phi = r := by
  refine ⟨Fin.ext ?_, ?_⟩
  · simp only [quadrant, Fin.ofNat]
    omega
  · rw [residual]
    omega

theorem foldPhase_quad (q : Nat) (phi : Word) : (foldPhase q phi).quad = quadrant phi := by
  rw [foldPhase]
  split <;> rfl

/-- On a quadrant boundary the lower quadrant's endpoint serves (43_carrier.md R183). -/
theorem foldPhase_boundary (q : Nat) {phi : Word} (h : residual phi = 0 ∧ quadrant phi ≠ 0) :
    (foldPhase q phi).quadEff = quadrant phi - 1 ∧ (foldPhase q phi).index = 2 ^ q := by
  rw [foldPhase, if_pos h]
  exact ⟨rfl, rfl⟩

/-- Off the boundaries the phase's own quadrant serves, at the nearest index (43_carrier.md R183). -/
theorem foldPhase_inside (q : Nat) {phi : Word} (h : ¬(residual phi = 0 ∧ quadrant phi ≠ 0)) :
    (foldPhase q phi).quadEff = quadrant phi ∧ (foldPhase q phi).index = nearestIndex q (residual phi) := by
  rw [foldPhase, if_neg h]
  exact ⟨rfl, rfl⟩

theorem foldPhase_index_le {q : Nat} (hq : q ≤ 16) (phi : Word) : (foldPhase q phi).index ≤ 2 ^ q := by
  by_cases h : residual phi = 0 ∧ quadrant phi ≠ 0
  · exact (foldPhase_boundary q h).2.le
  · rw [(foldPhase_inside q h).2]
    exact nearestIndex_le hq (residual_lt phi).le

/-- Settles O38: the boundary case is the model's, the other one is the nearest index of the residual. -/
theorem foldFindsTheNearestIndex : Obligations.FoldFindsTheNearestIndex := by
  intro q phi hq f r
  have hboundary : r = 0 ∧ f.quad.val ≠ 0 ↔ residual phi = 0 ∧ quadrant phi ≠ 0 := by
    simp only [f, r, foldPhase_quad, residual, ne_eq, Fin.val_eq_zero_iff]
  refine ⟨?parts, fun hr hne => ?boundary, fun h => ?inside⟩
  case parts =>
    simp only [f, foldPhase_quad]
    exact phase_parts phi
  case boundary =>
    have h := hboundary.mp ⟨hr, hne⟩
    obtain ⟨hquad, hindex⟩ := foldPhase_boundary q h
    refine ⟨?_, hindex⟩
    simp only [f, foldPhase_quad, hquad, Fin.sub_def] at hne ⊢
    omega
  case inside =>
    obtain ⟨hquad, hindex⟩ := foldPhase_inside q (mt hboundary.mpr h)
    obtain ⟨hlow, hhigh⟩ := (nearestIndex_eq_iff hq).mp hindex.symm
    have hstep := tableStep_eq hq
    refine ⟨hquad.trans (foldPhase_quad q phi).symm, foldPhase_index_le hq phi, ?_, ?_⟩
    all_goals
      simp only [residual, f, r] at *
      omega

end Sys2Proof.Machine
end

section
/-! The carrier word (43_carrier.md R184, R185) and its symmetries (R193). -/

namespace Sys2Proof.Machine

/-! ## The fold transform -/

/-- The top index of a quadrant and index 0 of the next give one pair (43_carrier.md R185). -/
theorem foldTransform_top (c : Config) (u : Fin 4) : foldTransform c u (2 ^ c.q) = foldTransform c (u + 1) 0 := by
  fin_cases u <;> simp [foldTransform, romCos_zero, romSin_zero, romCos_top, romSin_top]

/-- Two quadrants on, both components are negated (43_carrier.md R184). -/
theorem foldTransform_halfTurn (c : Config) (u : Fin 4) (k : Nat) :
    foldTransform c (u + 2) k = (-(foldTransform c u k).1, -(foldTransform c u k).2) := by
  fin_cases u <;> simp [foldTransform]

/-- In the mirrored quadrant at the mirrored index, I is negated and Q is kept (43_carrier.md R184). -/
theorem foldTransform_mirror {c : Config} (u : Fin 4) {k : Nat} (hk : k ≤ 2 ^ c.q) :
    foldTransform c (1 - u) (2 ^ c.q - k) = (-(foldTransform c u k).1, (foldTransform c u k).2) := by
  have hsin := romSin_mirror c.a hk
  have hcos : romCos c.q c.a (2 ^ c.q - k) = romSin c.q c.a k := rfl
  fin_cases u <;> simp [foldTransform, hsin, hcos]

/-- I and Q lie in [−2^A, 2^A] (43_carrier.md R185). -/
theorem foldTransform_range {c : Config} (u : Fin 4) {k : Nat} (hk : k ≤ 2 ^ c.q) :
    -2 ^ c.a ≤ (foldTransform c u k).1 ∧ (foldTransform c u k).1 ≤ 2 ^ c.a ∧
      -2 ^ c.a ≤ (foldTransform c u k).2 ∧ (foldTransform c u k).2 ≤ 2 ^ c.a := by
  have hcos : (romCos c.q c.a k : Int) ≤ 2 ^ c.a := by exact_mod_cast romCos_le c.a hk
  have hsin : (romSin c.q c.a k : Int) ≤ 2 ^ c.a := by exact_mod_cast romSin_le c.q c.a k
  fin_cases u <;> simp only [foldTransform] <;> omega

/-! ## The carrier's pair and word -/

/-- The boundary rule never changes the pair: it is that of the phase's own quadrant and nearest index
(43_carrier.md R185). -/
theorem carrierPair_eq {c : Config} (hq : c.q ≤ 16) (phi : Word) :
    carrierPair c phi = foldTransform c (quadrant phi) (nearestIndex c.q (residual phi)) := by
  rw [carrierPair]
  by_cases h : residual phi = 0 ∧ quadrant phi ≠ 0
  · obtain ⟨hquad, hindex⟩ := foldPhase_boundary c.q h
    rw [hquad, hindex, foldTransform_top, sub_add_cancel, h.1, nearestIndex_zero hq]
  · obtain ⟨hquad, hindex⟩ := foldPhase_inside c.q h
    rw [hquad, hindex]

/-- I and Q of every phase lie in [−2^A, 2^A] (43_carrier.md R185). -/
theorem carrierPair_range {c : Config} (hq : c.q ≤ 16) (phi : Word) :
    -2 ^ c.a ≤ (carrierPair c phi).1 ∧ (carrierPair c phi).1 ≤ 2 ^ c.a ∧
      -2 ^ c.a ≤ (carrierPair c phi).2 ∧ (carrierPair c phi).2 ≤ 2 ^ c.a :=
  foldTransform_range _ (foldPhase_index_le hq phi)

/-- A signed 16-bit value is the half-word it is packed into (43_carrier.md R185). -/
theorem carrierPack_halves {i q : Int} (hi : -2 ^ 15 ≤ i ∧ i < 2 ^ 15) (hq : -2 ^ 15 ≤ q ∧ q < 2 ^ 15) :
    ((carrierPack (i, q)).extractLsb' 0 16).toInt = i ∧ ((carrierPack (i, q)).extractLsb' 16 16).toInt = q := by
  rw [carrierPack, BitVec.extractLsb'_append_eq_right, BitVec.extractLsb'_append_eq_left]
  exact ⟨BitVec.toInt_ofInt_eq_self (by decide) hi.1 hi.2, BitVec.toInt_ofInt_eq_self (by decide) hq.1 hq.2⟩

/-- Settles O39: the pair is the fold transform's, whose range and endpoints the ROM gives. -/
theorem carrierRangeAndBoundary : Obligations.CarrierRangeAndBoundary := by
  intro c hcfg
  obtain ⟨hq, ha, -⟩ := Config_wf_ranges hcfg
  refine ⟨fun phi => ?pair, foldTransform_top c 0, ?_, foldTransform_top c 1, ?_, foldTransform_top c 2, ?_⟩
  case pair =>
    intro ct st
    have hquad (u : Fin 4) (h : (foldPhase c.q phi).quadEff = u) :
        carrierPair c phi = foldTransform c u (foldPhase c.q phi).index := by rw [carrierPair, h]
    obtain ⟨hiLow, hiHigh, hqLow, hqHigh⟩ := carrierPair_range hq phi
    have hword : (2 : Int) ^ c.a < 2 ^ 15 := pow_lt_pow_right₀ (by decide) (by omega)
    obtain ⟨hlow, hhigh⟩ := carrierPack_halves (i := (carrierPair c phi).1) (q := (carrierPair c phi).2)
      ⟨by omega, by omega⟩ ⟨by omega, by omega⟩
    exact ⟨hquad 0, hquad 1, hquad 2, hquad 3, hiLow, hiHigh, hqLow, hqHigh, hlow, hhigh⟩
  all_goals simp [foldTransform, romCos_zero, romSin_zero]

/-! ## The symmetries -/

/-- Half a turn moves the quadrant on by two and keeps the residual (43_carrier.md R193). -/
theorem parts_halfTurn (phi : Word) :
    quadrant (phi + 0x80000000#32) = quadrant phi + 2 ∧ residual (phi + 0x80000000#32) = residual phi := by
  have hparts := phase_parts phi
  have hlt := residual_lt phi
  have hquad : (quadrant phi + 2).val = ((quadrant phi).val + 2) % 4 := rfl
  refine parts_eq hlt ?_
  rw [hquad]
  bv_omega

/-- The mirrored quadrant as a number. -/
theorem val_mirror (u : Fin 4) : (1 - u).val = (5 - u.val) % 4 := by
  fin_cases u <;> rfl

/-- The mirror of a phase off the boundaries: the mirrored quadrant and residual (43_carrier.md R193). -/
theorem parts_mirror {phi : Word} (h : residual phi ≠ 0) :
    quadrant (0x80000000#32 - phi) = 1 - quadrant phi ∧ residual (0x80000000#32 - phi) = 2 ^ 30 - residual phi := by
  have hparts := phase_parts phi
  have hlt := residual_lt phi
  refine parts_eq (by omega) ?_
  rw [val_mirror]
  bv_omega

/-- The mirror of a phase on a boundary is on one too (43_carrier.md R193). -/
theorem parts_mirror_boundary {phi : Word} (h : residual phi = 0) :
    quadrant (0x80000000#32 - phi) = 1 - quadrant phi + 1 ∧ residual (0x80000000#32 - phi) = 0 := by
  have hparts := phase_parts phi
  have hquad : (1 - quadrant phi + 1).val = ((1 - quadrant phi).val + 1) % 4 := rfl
  refine parts_eq (by decide) ?_
  rw [hquad, val_mirror]
  bv_omega

/-- 2π − θ is π − θ and half a turn (43_carrier.md R193). -/
theorem neg_eq_mirror_halfTurn (phi : Word) : 0#32 - phi = 0x80000000#32 - phi + 0x80000000#32 := by
  bv_omega

section
variable {c : Config} (hq : c.q ≤ 16)
include hq

theorem carrierPair_halfTurn (phi : Word) :
    carrierPair c (phi + 0x80000000#32) = (-(carrierPair c phi).1, -(carrierPair c phi).2) := by
  obtain ⟨hquad, hres⟩ := parts_halfTurn phi
  rw [carrierPair_eq hq, carrierPair_eq hq, hquad, hres, foldTransform_halfTurn]

/-- The mirrored phase takes the mirrored quadrant, at the nearest index of the mirrored residual; on a boundary this
is the next quadrant's index 0 (43_carrier.md R193). -/
theorem carrierPair_mirror_eq (phi : Word) :
    carrierPair c (0x80000000#32 - phi) =
      foldTransform c (1 - quadrant phi) (nearestIndex c.q (2 ^ 30 - residual phi)) := by
  rw [carrierPair_eq hq]
  by_cases h : residual phi = 0
  · obtain ⟨hquad, hres⟩ := parts_mirror_boundary h
    rw [hquad, hres, h, nearestIndex_zero hq, Nat.sub_zero, nearestIndex_top hq, foldTransform_top]
  · obtain ⟨hquad, hres⟩ := parts_mirror h
    rw [hquad, hres]

theorem carrierPair_mirror {phi : Word} (h : residual phi % 2 ^ (30 - c.q) ≠ 2 ^ (30 - c.q - 1)) :
    carrierPair c (0x80000000#32 - phi) = (-(carrierPair c phi).1, (carrierPair c phi).2) := by
  have hle := (residual_lt phi).le
  rw [carrierPair_mirror_eq hq, nearestIndex_mirror hq hle, if_neg h, foldTransform_mirror _ (nearestIndex_le hq hle),
    carrierPair_eq hq]

end

/-- Off the boundaries the index depends on the residual only (43_carrier.md R183). -/
theorem foldPhase_index (q : Nat) {phi : Word} (h : residual phi ≠ 0) :
    (foldPhase q phi).index = nearestIndex q (residual phi) :=
  (foldPhase_inside q fun hb => h hb.1).2

/-- At a tie both mirrored phases round to the index above the mirrored one (43_carrier.md R193). -/
theorem foldPhase_index_mirror_tie {q : Nat} (hq : q ≤ 16) {phi : Word}
    (h : residual phi % 2 ^ (30 - q) = 2 ^ (30 - q - 1)) :
    (foldPhase q (0x80000000#32 - phi)).index = 2 ^ q - (foldPhase q phi).index + 1 ∧
      (foldPhase q (0#32 - phi)).index = 2 ^ q - (foldPhase q phi).index + 1 := by
  have hne : residual phi ≠ 0 := by
    intro hzero
    rw [hzero, Nat.zero_mod] at h
    exact absurd h.symm (by positivity)
  have hlt := residual_lt phi
  have hmirror := (parts_mirror hne).2
  have hneg : residual (0#32 - phi) = 2 ^ 30 - residual phi := by
    rw [neg_eq_mirror_halfTurn, (parts_halfTurn _).2, hmirror]
  rw [foldPhase_index q hne, foldPhase_index q (by omega), foldPhase_index q (by omega), hmirror, hneg,
    nearestIndex_mirror hq hlt.le, if_pos h]
  exact ⟨rfl, rfl⟩

/-- Settles O48: half a turn and one mirror, of which the other mirror is made. -/
theorem carrierSymmetries : Obligations.CarrierSymmetries := by
  intro c phi hcfg
  obtain ⟨hq, -⟩ := Config_wf_ranges hcfg
  refine ⟨carrierPair_halfTurn hq phi, fun h => ?_, foldPhase_index_mirror_tie hq⟩
  have hmirror := carrierPair_mirror hq h
  refine ⟨hmirror, ?_⟩
  rw [neg_eq_mirror_halfTurn, carrierPair_halfTurn hq, hmirror, neg_neg]

end Sys2Proof.Machine
end

section
/-! The carrier commands (43_carrier.md R186 to R191): the phase of a sample, and what each command writes or raises. -/

namespace Sys2Proof.Machine

/-! ## The phase accumulator -/

/-- The phase moves on by FCW from one sample to the next (43_carrier.md R186). -/
theorem phaseAt_succ (x : Args) (j : Nat) : phaseAt x (j + 1) = phaseAt x j + BitVec.ofNat 32 (opFcw x) := by
  rw [phaseAt, phaseAt, ← BitVec.ofInt_natCast, ← BitVec.ofInt_add]
  congr 1
  push_cast
  ring

theorem carAccAt_eq_phaseAt (x : Args) (j : Nat) : carAccAt x j = phaseAt x j := by
  induction j with
  | zero => rw [carAccAt, phaseAt, Nat.cast_zero, add_zero]
  | succ j ih => rw [carAccAt, ih, phaseAt_succ]

/-- Settles O40: the accumulator is the phase, by induction on the sample. -/
theorem carrierAccumulatorGivesThePhase : Obligations.CarrierAccumulatorGivesThePhase := carAccAt_eq_phaseAt

/-! ## The commands that write OUT -/

/-- A command whose body is the count check and `n` OUT words completes with those words and no fault recorded, or
raises INVALID_PARAMETER (40_engine.md R128). -/
theorem exec_checkedOuts {i : Instr} {s : State} {f : Nat → Word}
    (hbody : bodyOf i s = checkCount s (.ok (s.putOuts (opCount s.snap) f))) :
    (s.snap.a1.toNat ≤ s.cfg.bufDepth →
      ∃ t, exec i s = .next t ∧ SameFault s t ∧ WroteOuts s t s.snap.a1.toNat f) ∧
    (s.cfg.bufDepth < s.snap.a1.toNat → ∃ t, exec i s = .next t ∧ Raised s t .invalidParameter) :=
  ⟨fun hcount => ⟨_, exec_of_ok (hbody.trans (checkCount_le hcount)), rfl, wroteOuts_complete s _ f false⟩,
    fun hcount => ⟨_, exec_of_error (hbody.trans (if_pos hcount)), raised_complete s _⟩⟩

/-- Settles O41: the body is the count check and the carrier of every sample's phase. -/
theorem carGenWritesTheCarrier : Obligations.CarGenWritesTheCarrier := fun _ => exec_checkedOuts rfl

/-- Settles O42: the body is the count check and every sample's phase. -/
theorem carPhasesWritesThePhases : Obligations.CarPhasesWritesThePhases := fun _ => exec_checkedOuts rfl

/-- What CAR_LUT writes to OUT[j]: any word where IN[j] was raced, else the carrier of IN[j], which is any word where it
is unwritten (43_carrier.md R189; log 3, 6). -/
theorem lutWord_eq (s : State) (j : Nat) :
    s.lutWord j = if j ∈ s.raced then Config.freeWord s.draws (outAddr j)
      else carrier s.cfg ((Memory.wordAt s.mem (inAddr j)).getD (Config.freeWord s.draws (inAddr j))) := by
  rw [State.lutWord, inWord_eq]

/-- Settles O43: the body is the count check and the words of `lutWord_eq`. -/
theorem carLutWritesTheLookups : Obligations.CarLutWritesTheLookups := by
  intro s
  obtain ⟨houts, hraised⟩ := exec_checkedOuts (i := .carLut) (s := s) rfl
  refine ⟨fun hcount => ?_, hraised⟩
  obtain ⟨t, hexec, hfault, hwrote⟩ := houts hcount
  refine ⟨t, s.lutWord, hexec, hfault, hwrote, fun j _ => ⟨fun hraced => ?_, fun hraced w hw => ?_, ?_⟩⟩
  · rw [lutWord_eq, if_pos hraced, outAddr]
  · rw [lutWord_eq, if_neg hraced, inAddr, hw, Option.getD_some]
  · intro hraced hw
    rw [lutWord_eq, if_neg hraced, inAddr, hw, Option.getD_none]

/-- A command of `exec_checkedOuts` ends OK exactly if its count is within BUF_DEPTH (40_engine.md R128). -/
theorem exec_checkedOuts_ok_iff {i : Instr} {s t : State} {f : Nat → Word}
    (hbody : bodyOf i s = checkCount s (.ok (s.putOuts (opCount s.snap) f))) (h : exec i s = .next t) :
    t.err = .ok ↔ s.snap.a1.toNat ≤ s.cfg.bufDepth := by
  rw [exec_next h, hbody]
  by_cases hcount : s.snap.a1.toNat ≤ s.cfg.bufDepth
  · rw [checkCount_le hcount]
    exact iff_of_true rfl hcount
  · have hover : s.cfg.bufDepth < opCount s.snap := Nat.lt_of_not_le hcount
    rw [checkCount, if_pos hover]
    exact iff_of_false (by simp) hcount

/-- The OUT words of a command of `exec_checkedOuts` that ends OK. -/
theorem exec_checkedOuts_words {i : Instr} {s t : State} {f : Nat → Word}
    (hbody : bodyOf i s = checkCount s (.ok (s.putOuts (opCount s.snap) f))) (h : exec i s = .next t)
    (hok : t.err = .ok) {j : Nat} (hj : j < s.snap.a1.toNat) : Memory.wordAt t.mem (outAddr j) = some (f j) := by
  obtain ⟨t', hexec, -, hwrote⟩ := (exec_checkedOuts hbody).1 ((exec_checkedOuts_ok_iff hbody h).mp hok)
  obtain rfl : t = t' := Host.Outcome.next.inj (h.symm.trans hexec)
  exact hwrote.words j hj

/-- Settles O46: the three commands check one count, and the looked-up word is the phase that was copied. -/
theorem splitPipelineEqualsFused : Obligations.SplitPipelineEqualsFused := by
  intro s p g u l hp hg hpOk hcfg hcount hraced hcopy hl
  have hle := (exec_checkedOuts_ok_iff rfl hp).mp hpOk
  have hgOk := (exec_checkedOuts_ok_iff rfl hg).mpr hle
  have hlOk := (exec_checkedOuts_ok_iff rfl hl).mpr (by rwa [hcfg, hcount])
  refine ⟨hgOk, hlOk, fun j hj => ?_⟩
  have hin : Memory.wordAt u.mem (inAddr j) = some (phaseAt s.snap j) :=
    (hcopy j hj).trans (exec_checkedOuts_words rfl hp hpOk hj)
  rw [exec_checkedOuts_words rfl hg hgOk hj, exec_checkedOuts_words rfl hl hlOk (hcount ▸ hj), lutWord_eq, hraced,
    if_neg List.not_mem_nil, hin, Option.getD_some, hcfg]

/-! ## CAR_EVAL and CAR_ROM_READ -/

/-- A field put above a word's bits adds its number, scaled. -/
theorem toNat_or_field {x : Word} {n k : Nat} (hx : x.toNat < 2 ^ k) (hn : n * 2 ^ k < 2 ^ 32) :
    (x ||| BitVec.ofNat 32 n <<< k).toNat = x.toNat + 2 ^ k * n := by
  have hfield : (BitVec.ofNat 32 n <<< k).toNat = n <<< k := by
    have hle := Nat.le_mul_of_pos_right n (show 0 < 2 ^ k by positivity)
    rw [BitVec.toNat_shiftLeft, BitVec.toNat_ofNat, Nat.mod_eq_of_lt (hle.trans_lt hn), Nat.shiftLeft_eq,
      Nat.mod_eq_of_lt hn]
  rw [BitVec.toNat_or, hfield, Nat.or_comm, ← Nat.shiftLeft_add_eq_or_of_lt hx, Nat.shiftLeft_eq, Nat.add_comm,
    Nat.mul_comm]

/-- The diagnostic word as a number: its three fields do not overlap (43_carrier.md R191). -/
theorem evalWord_toNat {f : Fold} (h : f.index < 2 ^ 20) :
    (evalWord f).toNat = f.index + 2 ^ 20 * f.quadEff.val + 2 ^ 22 * f.quad.val := by
  have hindex : (BitVec.ofNat 32 f.index).toNat = f.index := Nat.mod_eq_of_lt (by omega)
  have hlow : (BitVec.ofNat 32 f.index ||| BitVec.ofNat 32 f.quadEff.val <<< 20).toNat =
      f.index + 2 ^ 20 * f.quadEff.val := by
    rw [toNat_or_field (by omega) (by omega), hindex]
  rw [evalWord, toNat_or_field (by omega) (by omega), hlow]

/-- Settles O44: the body writes the carrier and the diagnostic word, whose fields the configuration keeps apart. -/
theorem carEvalReturnsTheFold : Obligations.CarEvalReturnsTheFold := by
  intro s hcfg
  obtain ⟨hq, -⟩ := Config_wf_ranges hcfg
  refine ⟨_, _, exec_of_ok (i := .carEval) rfl, rfl, wroteResults_complete s _ _ false, evalWord_toNat ?_⟩
  calc (foldPhase s.cfg.q s.snap.a4).index
      ≤ 2 ^ s.cfg.q := foldPhase_index_le hq _
    _ ≤ 2 ^ 16 := Nat.pow_le_pow_right two_pos hq
    _ < 2 ^ 20 := by decide

/-- A ROM word as a number: both entries fit their half-words (43_carrier.md R190). -/
theorem romWord_toNat {c : Config} (hcfg : c.wf = true) {k : Nat} (hk : k ≤ 2 ^ c.q) :
    (romWord c k).toNat = romCos c.q c.a k + 2 ^ 16 * romSin c.q c.a k := by
  obtain ⟨-, ha, -⟩ := Config_wf_ranges hcfg
  have hamp : 2 ^ c.a ≤ 2 ^ 14 := Nat.pow_le_pow_right two_pos ha
  have hcos := romCos_le c.a hk
  have hsin := romSin_le c.q c.a k
  rw [romWord, append_toNat, BitVec.toNat_ofNat, BitVec.toNat_ofNat]
  omega

/-- Settles O45: an index of the table returns its ROM word, and any other raises. -/
theorem carRomReadReturnsTheEntry : Obligations.CarRomReadReturnsTheEntry := by
  intro s hcfg
  refine ⟨fun hk => ?_, fun hk => ⟨_, exec_of_error (i := .carRomRead) (if_pos hk), raised_complete s _⟩⟩
  exact ⟨_, _, exec_of_ok (i := .carRomRead) (if_neg (Nat.not_lt.mpr hk)), rfl, wroteResults_complete s _ 0 false,
    romWord_toNat hcfg hk⟩

end Sys2Proof.Machine
end

section
/-! The carrier's error against exp(iθ) (43_carrier.md R192): at most half a table step of angle, and half a unit of
2^−A in each component. -/

namespace Sys2Proof.Machine

open Real

/-! ## The two angles -/

/-- The angle of a residual, in units of (π/2)/2^30 rad (43_carrier.md R182). -/
noncomputable def residualAngle (r : Nat) : ℝ := r * (π / 2) / 2 ^ 30

/-- The angle of a phase word is its quadrant's quarter turns and its residual's angle (43_carrier.md R182). -/
theorem phaseAngle_eq (phi : Word) :
    2 * π * phi.toNat / 2 ^ 32 = (quadrant phi).val * (π / 2) + residualAngle (residual phi) := by
  rw [phase_parts phi, residualAngle]
  push_cast
  ring

/-- The nearest index's angle is within half a table step of the residual's (43_carrier.md R192). -/
theorem abs_romAngle_sub_residualAngle_le {q : Nat} (hq : q ≤ 16) (r : Nat) :
    |romAngle q (nearestIndex q r) - residualAngle r| ≤ π / 2 ^ (q + 2) := by
  obtain ⟨hlow, hhigh⟩ := (nearestIndex_eq_iff hq (r := r)).mp rfl
  have hturn : (2 : ℝ) ^ q * 2 ^ (30 - q) = 2 ^ 30 := by exact_mod_cast tableSteps_eq hq
  have hstep : (2 : ℝ) ^ (30 - q) = 2 * 2 ^ (30 - q - 1) := by exact_mod_cast tableStep_eq hq
  have hlow' : (nearestIndex q r : ℝ) * 2 ^ (30 - q) ≤ r + 2 ^ (30 - q - 1) := by exact_mod_cast hlow
  have hhigh' : (r : ℝ) ≤ nearestIndex q r * 2 ^ (30 - q) + 2 ^ (30 - q - 1) := by exact_mod_cast hhigh.le
  have hdiff : |(nearestIndex q r : ℝ) * 2 ^ (30 - q) - r| ≤ 2 ^ (30 - q - 1) :=
    abs_le.mpr ⟨by linarith, by linarith⟩
  have hscale : romAngle q (nearestIndex q r) - residualAngle r =
      (nearestIndex q r * 2 ^ (30 - q) - r) * (π / 2 / 2 ^ 30) := by
    rw [romAngle, residualAngle, ← hturn]
    field_simp
  have hbound : π / 2 ^ (q + 2) = 2 ^ (30 - q - 1) * (π / 2 / 2 ^ 30) := by
    rw [← hturn, hstep, pow_add]
    field_simp
  rw [hscale, hbound, abs_mul, abs_of_pos (show (0 : ℝ) < π / 2 / 2 ^ 30 by positivity)]
  exact mul_le_mul_of_nonneg_right hdiff (by positivity)

/-- Two points of the unit circle are no further apart than their angles (43_carrier.md R192). -/
theorem norm_exp_sub_exp_le (x y : ℝ) :
    ‖Complex.exp (x * Complex.I) - Complex.exp (y * Complex.I)‖ ≤ |x - y| := by
  have hfactor : Complex.exp (x * Complex.I) - Complex.exp (y * Complex.I) =
      Complex.exp (y * Complex.I) * (Complex.exp (Complex.I * (x - y : ℝ)) - 1) := by
    rw [mul_sub, ← Complex.exp_add, mul_one]
    push_cast
    ring_nf
  rw [hfactor, norm_mul, Complex.norm_exp_ofReal_mul_I, one_mul]
  exact norm_exp_I_mul_ofReal_sub_one_le

/-! ## The rounding -/

/-- The pair of a table index, as a complex number. -/
noncomputable def romPoint (q a k : Nat) : ℂ := romCos q a k + romSin q a k * Complex.I

/-- 2^(−A−1/2), squared, is two squares of half a unit of 2^−A. -/
theorem rounding_sq (a : Nat) : ((2 : ℝ) ^ (-(a : ℝ) - 1 / 2)) ^ 2 = 2 * (1 / 2 / 2 ^ a) ^ 2 := by
  rw [rpow_sub two_pos, rpow_neg two_pos.le, rpow_natCast, ← sqrt_eq_rpow, div_pow, sq_sqrt two_pos.le]
  ring

/-- A value rounded to nearest and scaled down is within half a unit of 2^−A. -/
theorem sq_round_error_le (x : ℝ) (a : Nat) : ((round (x * 2 ^ a) : ℝ) / 2 ^ a - x) ^ 2 ≤ (1 / 2 / 2 ^ a) ^ 2 := by
  have hscale : (round (x * 2 ^ a) : ℝ) / 2 ^ a - x = (round (x * 2 ^ a) - x * 2 ^ a) / 2 ^ a := by
    field_simp
  rw [hscale, div_pow, div_pow]
  gcongr ?_ / _
  rw [sq_le_sq, abs_sub_comm]
  exact (abs_sub_round _).trans (le_abs_self _)

/-- The table's point is within 2^(−A−1/2) of the circle's at its angle (43_carrier.md R192). -/
theorem norm_romPoint_sub_exp_le {q k : Nat} (a : Nat) (hk : k ≤ 2 ^ q) :
    ‖romPoint q a k / 2 ^ a - Complex.exp (romAngle q k * Complex.I)‖ ≤ (2 : ℝ) ^ (-(a : ℝ) - 1 / 2) := by
  have hcos := sq_round_error_le (cos (romAngle q k)) a
  have hsin := sq_round_error_le (sin (romAngle q k)) a
  rw [← romCos_eq_round a hk, Int.cast_natCast] at hcos
  rw [← romSin_eq_round a hk, Int.cast_natCast] at hsin
  have hsplit : romPoint q a k / 2 ^ a - Complex.exp (romAngle q k * Complex.I) =
      ((romCos q a k / 2 ^ a - cos (romAngle q k) : ℝ) : ℂ) +
        ((romSin q a k / 2 ^ a - sin (romAngle q k) : ℝ) : ℂ) * Complex.I := by
    rw [romPoint, Complex.exp_mul_I]
    push_cast
    ring
  rw [hsplit, Complex.norm_add_mul_I, sqrt_le_left (by positivity), rounding_sq]
  linarith

/-! ## The quadrants -/

/-- The fold transform is a rotation of the table's point by the quadrant's quarter turns (43_carrier.md R184). -/
theorem foldTransform_eq_rotation (c : Config) (u : Fin 4) (k : Nat) :
    ((foldTransform c u k).1 + (foldTransform c u k).2 * Complex.I : ℂ) =
      Complex.I ^ u.val * romPoint c.q c.a k := by
  apply Complex.ext <;> fin_cases u <;> simp [foldTransform, romPoint, pow_succ]

/-- Quarter turns come out of the exponential as powers of i. -/
theorem exp_quarterTurns (n : Nat) (x : ℝ) :
    Complex.exp ((n * (π / 2) + x : ℝ) * Complex.I) = Complex.I ^ n * Complex.exp (x * Complex.I) := by
  have hsplit : ((n * (π / 2) + x : ℝ) * Complex.I : ℂ) = n * (π / 2 * Complex.I) + x * Complex.I := by
    push_cast
    ring
  rw [hsplit, Complex.exp_add, Complex.exp_nat_mul, Complex.exp_pi_div_two_mul_I]

/-- The carrier's error: half a table step and the rounding (43_carrier.md R192). -/
theorem norm_carrier_sub_exp_le {c : Config} (hq : c.q ≤ 16) (phi : Word) :
    ‖((carrierPair c phi).1 + (carrierPair c phi).2 * Complex.I) / (2 ^ c.a : ℂ) -
      Complex.exp ((2 * π * phi.toNat / 2 ^ 32 : ℝ) * Complex.I)‖ ≤
        π / 2 ^ (c.q + 2) + (2 : ℝ) ^ (-(c.a : ℝ) - 1 / 2) := by
  have hround := norm_romPoint_sub_exp_le c.a (nearestIndex_le hq (residual_lt phi).le)
  have hangle := (norm_exp_sub_exp_le _ _).trans (abs_romAngle_sub_residualAngle_le hq (residual phi))
  rw [carrierPair_eq hq, foldTransform_eq_rotation, phaseAngle_eq, exp_quarterTurns, mul_div_assoc, ← mul_sub, norm_mul,
    norm_pow, Complex.norm_I, one_pow, one_mul]
  exact (norm_sub_le_norm_sub_add_norm_sub _ _ _).trans ((add_le_add hround hangle).trans_eq (add_comm _ _))

/-- Settles O47: the error splits at the table's angle, and each summand of the bound falls in its own power. -/
theorem carrierErrorBound : Obligations.CarrierErrorBound := by
  refine ⟨fun c phi hcfg => norm_carrier_sub_exp_le (Config_wf_ranges hcfg).1 phi, fun q a => ⟨?_, ?_⟩⟩
  · have hfall : π / 2 ^ (q + 1 + 2) < π / 2 ^ (q + 2) :=
      div_lt_div_of_pos_left pi_pos (by positivity) (pow_lt_pow_right₀ one_lt_two (by omega))
    exact add_lt_add_left hfall _
  · have hfall : (2 : ℝ) ^ (-((a + 1 : Nat) : ℝ) - 1 / 2) < 2 ^ (-(a : ℝ) - 1 / 2) :=
      rpow_lt_rpow_of_exponent_lt one_lt_two (by push_cast; linarith)
    exact add_lt_add_right hfall _

end Sys2Proof.Machine
end

section
/-! Exceptions (60_exceptions.md): the turn of an idle engine, the frame of a raise, and the interrupt output. -/

namespace Sys2Proof.Machine

/-! ## The idle engine -/

theorem engineTurn_of_idle {s : State} (h : s.busy = false) : engineTurn s = .next s :=
  if_neg (by simp [h])

/-- Settles O6: either form of the step is the engine's turn, and an idle engine answers the state it is given. -/
theorem idleEngineTurnChangesNothing : Obligations.IdleEngineTurnChangesNothing := by
  intro s hidle
  refine ⟨fun hp => ?_, fun rest hp => ?_⟩
  · rw [step_of_noMove hp]
    exact engineTurn_of_idle hidle
  · rw [step_of_engineMove hp]
    exact engineTurn_of_idle hidle

/-! ## The frame of a raise -/

/-- Settles O57: a body that answers a state ends with OK, and one that raises leaves only the completion writes. -/
theorem aRaiseWritesOnlyStatus : Obligations.ARaiseWritesOnlyStatus := by
  intro i s t h herr
  cases hbody : bodyOf i s with
  | ok u =>
    rw [exec_of_ok hbody] at h
    cases h
    exact absurd rfl herr
  | error e =>
    rw [exec_of_error hbody] at h
    cases h
    exact raised_complete s e

/-! ## The interrupt output -/

theorem irq_iff (s : State) : s.irq = true ↔ s.irqEn = true ∧ s.done = true := Bool.and_eq_true_iff

/-- A completion sets DONE and keeps IRQ_EN, whatever the status code (60_exceptions.md R222). -/
theorem Completed.irq {s t : State} {e : StatusCode} (h : Completed s t e) : t.irq = s.irqEn := by
  rw [State.irq, h.irqEn, h.done, Bool.and_true]

/-- The engine's turn with BUSY = 1 raises the interrupt exactly if it is enabled. -/
theorem engineTurn_irq {s t : State} (hbusy : s.busy = true) (h : engineTurn s = .next t) : t.irq = s.irqEn := by
  obtain ⟨e, hcompleted⟩ := engineBody_completed s
  rw [engineTurn_of_busy hbusy] at h
  cases h
  exact hcompleted.irq

/-- Settles O23: the engine's turn by `engineTurn_irq`; each host write by what the step on it gives (O9, O11, O12). -/
theorem interruptLevel : Obligations.InterruptLevel := by
  intro s t h
  refine ⟨irq_iff s, fun hbusy turn => ?completion, fun addr w rest hp => ⟨fun ha => ?ctrl, fun ha => ?status,
    fun ha hidle => ?acceptance⟩, fun rest hp => ?reset⟩
  case completion =>
    rcases turn with hp | ⟨rest, hp⟩
    · rw [step_of_noMove hp] at h
      exact engineTurn_irq hbusy h
    · rw [step_of_engineMove hp] at h
      exact engineTurn_irq (s := { s with pending := rest }) hbusy h
  case ctrl =>
    obtain ⟨d, hstep⟩ := (controlWriteAndRead s addr rest ha).1 w hp
    rw [hstep] at h
    cases h
    rfl
  case status =>
    obtain ⟨d, hstep⟩ := statusWriteClearsOnlyDoneAndOverrun s addr w rest ha hp
    rw [hstep] at h
    cases h
    exact (Bool.and_assoc ..).symm
  case acceptance =>
    obtain ⟨u, hstep, -, -, -, hdone, -⟩ := commandWriteIsAccepted s addr w rest ha hp hidle
    rw [hstep] at h
    cases h
    rw [State.irq, hdone, Bool.and_false]
  case reset =>
    rw [step_reset hp] at h
    cases h
    rfl

end Sys2Proof.Machine
end

section
/-! The reset step. -/

namespace Sys2Proof.Machine

/-! ## What the host reads after a reset (10_state.md R44) -/

@[simp] theorem Args.get_zero (j : Fin 8) : Args.zero.get j = 0 := by
  fin_cases j <;> rfl

@[simp] theorem Memory.wordAt_nil (a : Nat) : Memory.wordAt [] a = none := rfl

@[simp] theorem hostReset_statusWord (s : State) : (hostReset s).statusWord = 0 :=
  BitVec.eq_of_toNat_eq (statusWord_toNat (hostReset s))

@[simp] theorem hostReset_ctrlWord (s : State) : (hostReset s).ctrlWord = 0 :=
  BitVec.eq_of_toNat_eq (ctrlWord_toNat (hostReset s))

@[simp] theorem hostReset_ctLenWord (s : State) : (hostReset s).ctLenWord = 0 := rfl
@[simp] theorem hostReset_ctPrnsWord (s : State) : (hostReset s).ctPrnsWord = 0 := rfl
@[simp] theorem hostReset_irq (s : State) : (hostReset s).irq = false := rfl

@[simp] theorem hostReset_cell (s : State) (r c : Nat) : (hostReset s).cell r c = none :=
  Memory.byteAt_nil (cellKey r c)

/-! ## The step -/

/-- Settles O21: the step is `hostReset` whether a command runs or not, and `hostReset` reads neither BUSY nor the
running command. -/
theorem resetStepGivesTheResetValues : Obligations.ResetStepGivesTheResetValues := by
  intro s rest hp
  exact ⟨hostReset { s with pending := rest }, step_reset hp,
    hostReset_statusWord _, hostReset_ctrlWord _, Args.get_zero, hostReset_result0 _, hostReset_result1 _,
    hostReset_ctLenWord _, hostReset_ctPrnsWord _, hostReset_cell _, Memory.wordAt_nil, hostReset_irq _,
    hostReset_busy _, hostReset_cfg _, hostReset_pending _, hostReset_rdata _, hostReset_fault _⟩

end Sys2Proof.Machine
end
